-- ==== Sys2Proof/Word.lean ====
section
/-! DEFINITION. The word types of the G7P3 core: 16-bit registers and cells, 8-bit instruction words, 4-bit fields. -/

namespace Sys2Proof

/-- A register or a data-memory cell: a 16-bit two's-complement pattern (R20, R33; width R9, entry 14). -/
abbrev Word := BitVec 16

/-- One instruction word, the unit of the program store (R34, R70). -/
abbrev InstrWord := BitVec 8

/-- A 4-bit field of an instruction word: the opcode or the operand field (R71). -/
abbrev Field := BitVec 4

end Sys2Proof
end

