-- ==== Sys2Proof/Config.lean ====
section
/-! DEFINITION. The implementation parameters of the core (R9) and the reset values a launch names (R38). -/

namespace Sys2Proof

/-- `MEMSIZE`, the number of data-memory cells (R9, R33). -/
abbrev Config.memSize : Nat := 128

/-- `CEIL`, the instruction-count ceiling: a run halts when `count` exceeds it (R9, R106). -/
abbrev Config.ceiling : Nat := 1024

/-- The largest program length `N` (R9, D21). -/
abbrev Config.maxProgramLength : Nat := 2 ^ 24

/-- The model arguments `ResetR`, `ResetRa`, `ResetRp`: the reset values the source does not give (R38, D5). -/
structure ResetValues where
  /-- `ResetR`: the reset value of each general register. -/
  r  : Vector Word 8
  /-- `ResetRa`: the reset value of the active-register index. -/
  ra : Fin 8
  /-- `ResetRp`: the reset value of the program register. -/
  rp : Int
  deriving DecidableEq, Repr

/-- The reset values `State.reset` takes: zero in each register. DESIGN CHOICE, the spec leaves them open (entries 1, 2, 3). -/
def Config.resetValues : ResetValues :=
  { r := Vector.replicate 8 0, ra := 0, rp := 0 }

end Sys2Proof
end

