-- ==== Sys2Proof/Syntax.lean ====
section
/-! DEFINITION. The syntax of the instruction set: mnemonics, operand classes, instructions with their raw operand field. -/

namespace Sys2Proof

/-- The 16 mnemonics, in the order the source lists them (R3). -/
inductive Mnemonic where
  | sar | add | mov | nand | sll | srl | load | stor
  | sub | mlt | bslt | movi | addi | spc | b | stop
  deriving DecidableEq, Repr

/-- The operand class of a mnemonic, which fixes how its handler reads the operand field (R76). -/
inductive OperandClass where
  | registerOperand
  | shift
  | memoryOperand
  | immediate
  | control
  deriving DecidableEq, Repr

/-- One instruction: its mnemonic (the constructor) and the RAW 4-bit operand field `f`.
The decoder does no operand semantics (R72), so the field is kept as it stands, for `B` and `STOP` too (entry 17). -/
inductive Instr where
  | sar (f : Field)    -- R130
  | add (f : Field)    -- R131
  | mov (f : Field)    -- R132
  | nand (f : Field)   -- R133
  | sll (f : Field)    -- R170
  | srl (f : Field)    -- R171
  | load (f : Field)   -- R180
  | stor (f : Field)   -- R181
  | sub (f : Field)    -- R134
  | mlt (f : Field)    -- R135
  | bslt (f : Field)   -- R136
  | movi (f : Field)   -- R190
  | addi (f : Field)   -- R191
  | spc (f : Field)    -- R137
  | b (f : Field)      -- R200
  | stop (f : Field)   -- R201
  deriving DecidableEq, Repr

/-- The opcode map: entry `op` is the mnemonic of the opcode value `op` (R73). A configuration of the run (R35, entry 4). -/
abbrev OpcodeMap := List Mnemonic

/-- Why the decoder rejects a word. -/
inductive DecodeError where
  /-- The opcode has no entry in the opcode map ("opcode pattern not in the fixed 16-entry table", R212).
  Never with a legal map (R73, R79). -/
  | opcodeNotInTable (op : Field)
  deriving DecidableEq, Repr

/-- One line of assembly: a mnemonic and at most one decimal operand (R90). -/
structure AsmLine where
  mnemonic : Mnemonic
  operand  : Option Int
  deriving DecidableEq, Repr

end Sys2Proof
end

