-- ==== Sys2Proof/WellFormed.lean ====
section
/-! DEFINITION. The static check on an instruction's operand field (R76), and what makes an opcode map legal (R73, R74). -/

namespace Sys2Proof

/-- The field passes the static check of the register-operand, shift and memory-operand classes: `f <= 7` (R76, R78). -/
abbrev registerFieldOk (f : Field) : Prop := f.toNat ≤ 7

/-- The field passes the static check of the immediate class: `f <= 11` (R76, R77). -/
abbrev immediateFieldOk (f : Field) : Prop := f.toNat ≤ 11

/-- The instruction passes the static check of its class (R76). A word that does not pass it still decodes (R79):
it fails with `OperandOutOfRange` in every state. -/
abbrev Instr.wellFormed (i : Instr) : Bool :=
  match i with
  | .sar f => decide (registerFieldOk f)
  | .add f => decide (registerFieldOk f)
  | .mov f => decide (registerFieldOk f)
  | .nand f => decide (registerFieldOk f)
  | .sll f => decide (registerFieldOk f)
  | .srl f => decide (registerFieldOk f)
  | .load f => decide (registerFieldOk f)
  | .stor f => decide (registerFieldOk f)
  | .sub f => decide (registerFieldOk f)
  | .mlt f => decide (registerFieldOk f)
  | .bslt f => decide (registerFieldOk f)
  | .movi f => decide (immediateFieldOk f)
  | .addi f => decide (immediateFieldOk f)
  | .spc f => decide (registerFieldOk f)
  | .b _ => true
  | .stop _ => true

/-- A legal opcode map: a bijection from the 16 opcode values to the 16 mnemonics (R73)
with `SAR` = `0000` and `STOP` = `1111` (R74). -/
abbrev OpcodeMap.legal (m : OpcodeMap) : Prop :=
  m.length = 16 ∧ m.Nodup ∧ m[0]? = some Mnemonic.sar ∧ m[15]? = some Mnemonic.stop

end Sys2Proof
end

