-- ==== Sys2Proof/Decode.lean ====
section
/-! DEFINITION. The decoder (R70 to R80), the encoder, the default opcode map (R75) and the canonical assembler (R90, R91). -/

namespace Sys2Proof

/-- The default opcode map: the list order of R75 (decision D3; `SAR` and `STOP` are fixed by the source, R74). -/
def defaultOpcodeMap : OpcodeMap :=
  [.sar, .add, .mov, .nand, .sll, .srl, .load, .stor, .sub, .mlt, .bslt, .movi, .addi, .spc, .b, .stop]

/-- `op = word[7:4]` (R71). -/
def opcodeField (w : InstrWord) : Field := w.extractLsb' 4 4

/-- `f = word[3:0]` (R71). -/
def operandField (w : InstrWord) : Field := w.extractLsb' 0 4

/-- The instruction of a mnemonic with a raw operand field. -/
def Instr.ofMnemonic (m : Mnemonic) (f : Field) : Instr :=
  match m with
  | .sar => .sar f
  | .add => .add f
  | .mov => .mov f
  | .nand => .nand f
  | .sll => .sll f
  | .srl => .srl f
  | .load => .load f
  | .stor => .stor f
  | .sub => .sub f
  | .mlt => .mlt f
  | .bslt => .bslt f
  | .movi => .movi f
  | .addi => .addi f
  | .spc => .spc f
  | .b => .b f
  | .stop => .stop f

/-- The mnemonic of an instruction. -/
def Instr.mnemonic (i : Instr) : Mnemonic :=
  match i with
  | .sar _ => .sar
  | .add _ => .add
  | .mov _ => .mov
  | .nand _ => .nand
  | .sll _ => .sll
  | .srl _ => .srl
  | .load _ => .load
  | .stor _ => .stor
  | .sub _ => .sub
  | .mlt _ => .mlt
  | .bslt _ => .bslt
  | .movi _ => .movi
  | .addi _ => .addi
  | .spc _ => .spc
  | .b _ => .b
  | .stop _ => .stop

/-- The raw operand field of an instruction. -/
def Instr.field (i : Instr) : Field :=
  match i with
  | .sar f => f
  | .add f => f
  | .mov f => f
  | .nand f => f
  | .sll f => f
  | .srl f => f
  | .load f => f
  | .stor f => f
  | .sub f => f
  | .mlt f => f
  | .bslt f => f
  | .movi f => f
  | .addi f => f
  | .spc f => f
  | .b f => f
  | .stop f => f

/-- The operand class of a mnemonic (R76). -/
def Mnemonic.operandClass (m : Mnemonic) : OperandClass :=
  match m with
  | .sar => .registerOperand
  | .add => .registerOperand
  | .mov => .registerOperand
  | .nand => .registerOperand
  | .sll => .shift
  | .srl => .shift
  | .load => .memoryOperand
  | .stor => .memoryOperand
  | .sub => .registerOperand
  | .mlt => .registerOperand
  | .bslt => .registerOperand
  | .movi => .immediate
  | .addi => .immediate
  | .spc => .registerOperand
  | .b => .control
  | .stop => .control

/-- The instruction of the same mnemonic whose field is the one that stands for all the fields that do the same: the
immediate class takes 8 to 11 to 0 to 3, `B` and `STOP` take every field to 0 (R80). -/
def Instr.canonical (i : Instr) : Instr :=
  match i with
  | .movi f => .movi (if 8 ≤ f.toNat ∧ f.toNat ≤ 11 then f - 8#4 else f)
  | .addi f => .addi (if 8 ≤ f.toNat ∧ f.toNat ≤ 11 then f - 8#4 else f)
  | .b _ => .b 0#4
  | .stop _ => .stop 0#4
  | .sar f => .sar f
  | .add f => .add f
  | .mov f => .mov f
  | .nand f => .nand f
  | .sll f => .sll f
  | .srl f => .srl f
  | .load f => .load f
  | .stor f => .stor f
  | .sub f => .sub f
  | .mlt f => .mlt f
  | .bslt f => .bslt f
  | .spc f => .spc f

/-- Decode one word under an opcode map: split it, look the mnemonic up, hand the raw field over (R72, R73).
It rejects only an opcode that the map lacks, and names it (R212, entry 11). -/
def decode (om : OpcodeMap) (w : InstrWord) : Except DecodeError Instr :=
  match om[(opcodeField w).toNat]? with
  | some m => .ok (Instr.ofMnemonic m (operandField w))
  | none => .error (.opcodeNotInTable (opcodeField w))

/-- The opcode value of a mnemonic under an opcode map: the place of its entry (R73). -/
def opcodeOf (om : OpcodeMap) (m : Mnemonic) : Field := BitVec.ofNat 4 (om.idxOf m)

/-- Encode an instruction under an opcode map: the word `op ++ f` (R71, R91). -/
def encode (om : OpcodeMap) (i : Instr) : InstrWord := opcodeOf om i.mnemonic ++ i.field

/-- The word of an 8-character binary text, character 0 leftmost: character `k` of the text is `word[7-k]` (R71, D4).
A text of another length is malformed and has no word (R212). -/
def wordOfText (cs : List Bool) : Option InstrWord :=
  if cs.length = 8 then some (BitVec.ofNat 8 (cs.foldl (fun n c => 2 * n + c.toNat) 0)) else none

/-- The spelling of a mnemonic (R3, R90). -/
def Mnemonic.name (m : Mnemonic) : String :=
  match m with
  | .sar => "SAR"
  | .add => "ADD"
  | .mov => "MOV"
  | .nand => "NAND"
  | .sll => "SLL"
  | .srl => "SRL"
  | .load => "LOAD"
  | .stor => "STOR"
  | .sub => "SUB"
  | .mlt => "MLT"
  | .bslt => "BSLT"
  | .movi => "MOVI"
  | .addi => "ADDI"
  | .spc => "SPC"
  | .b => "B"
  | .stop => "STOP"

/-- The text of a line of assembly: `MNEMONIC n`, or the mnemonic alone (R90). -/
def AsmLine.text (l : AsmLine) : String :=
  match l.operand with
  | some n => l.mnemonic.name ++ " " ++ toString n
  | none => l.mnemonic.name

/-- The canonical instruction of a line of assembly (R90, R91): a register operand `n` in field `n`; an immediate in
`[-4, 3]` in field 0 to 7; no operand and field 0 for `B` and `STOP`. A line that says something else has none (entry 18). -/
def assemble (l : AsmLine) : Option Instr :=
  match l.mnemonic.operandClass, l.operand with
  | .control, none => some (Instr.ofMnemonic l.mnemonic 0)
  | .immediate, some n =>
    if 0 ≤ n ∧ n ≤ 3 then some (Instr.ofMnemonic l.mnemonic (BitVec.ofNat 4 n.toNat))
    else if -4 ≤ n ∧ n < 0 then some (Instr.ofMnemonic l.mnemonic (BitVec.ofNat 4 (n + 8).toNat))
    else none
  | .registerOperand, some n =>
    if 0 ≤ n ∧ n ≤ 15 then some (Instr.ofMnemonic l.mnemonic (BitVec.ofNat 4 n.toNat)) else none
  | .shift, some n =>
    if 0 ≤ n ∧ n ≤ 15 then some (Instr.ofMnemonic l.mnemonic (BitVec.ofNat 4 n.toNat)) else none
  | .memoryOperand, some n =>
    if 0 ≤ n ∧ n ≤ 15 then some (Instr.ofMnemonic l.mnemonic (BitVec.ofNat 4 n.toNat)) else none
  | _, _ => none

/-- The instruction the decoder reads, under the default opcode map, from an instruction of `nbits` bits whose value
is `w`; `none` where that is not one 8-bit word (R70). -/
def decodeTableWord (nbits w : Nat) : Option Instr :=
  if nbits = 8 ∧ w < 2 ^ 8 then (decode defaultOpcodeMap (BitVec.ofNat 8 w)).toOption else none

end Sys2Proof
end

