-- ==== Sys2Proof/Machine/State.lean ====
section
/-! DEFINITION. The state of the core (R20 to R37), the reasons a step or the host interface can stop, and the state after reset. -/

namespace Sys2Proof.Machine

/-- Why a run halted normally (R28). -/
inductive NormalCause where
  /-- `STOP` was fetched (R201). -/
  | stop
  /-- `pc` was outside `[0, N)` at a fetch (R102). -/
  | endOfProgram
  deriving DecidableEq, Repr

/-- Why a run halted with an error, with what the status records (R28, R210). -/
inductive ErrorCause where
  /-- The opcode is not in the opcode map; unreachable with a legal map (R212). -/
  | decodeFailure (op : Field)
  /-- An operand check failed: the mnemonic and the raw field (R211). -/
  | operandOutOfRange (m : Mnemonic) (f : Field)
  /-- `count` exceeded 1024 (R106, R213). -/
  | instructionCountExceeded
  deriving DecidableEq, Repr

/-- The state of the control FSM (R28). -/
inductive Status where
  | running
  | haltedNormal (c : NormalCause)
  | haltedError (c : ErrorCause)
  deriving DecidableEq, Repr

/-- One trace record (R225). The semantic description is static per mnemonic and its text is not in the source, so the
mnemonic stands for it (D20, entry 8). Registers, `ra`, `rp` and `pc` are those after the step. -/
structure TraceRecord where
  mnemonic : Mnemonic
  /-- The register index, the signed immediate, or none for `B`. -/
  operand  : Option Int
  regs     : Vector Word 8
  ra       : Fin 8
  rp       : Int
  pc       : Int
  deriving DecidableEq, Repr

/-- The data memory as (address, cell) pairs, addresses strictly rising, no cell equal to 0, which is what an unlisted
address reads as (R33, R37, R52, entries 6 and 9). -/
abbrev Memory := List (Nat × Word)

/-- The whole state of the core. -/
@[ext]
structure State where
  /-- `R[0]` to `R[7]` (R20). -/
  regs : Vector Word 8
  /-- `Ra`, the active-register index (R22). -/
  ra : Fin 8
  /-- `Rp`, the program register (R23). -/
  rp : Int
  /-- `pc`, the program counter (R24). -/
  pc : Int
  /-- `count`, the instruction count (R27). -/
  count : Nat
  /-- `status`, the FSM (R28). -/
  status : Status
  /-- `Mem[0]` to `Mem[127]` (R33). -/
  mem : Memory
  /-- The program store; `N` is its length (R34, R41). -/
  prog : List InstrWord
  /-- The trace enable, fixed for the run (R35, R223). -/
  debug : Bool
  /-- The opcode map, fixed for the run (R35, R41). -/
  opcodeMap : OpcodeMap
  /-- The level of the loader's report input `mem_image_malformed`, as it was last driven (R44, entry 21). -/
  memImageMalformed : Bool
  /-- The trace records the run has emitted, oldest first (R46, R111). -/
  trace : List TraceRecord
  deriving DecidableEq, Repr

/-- Why a step stops without a next state. -/
inductive Fault where
  /-- `MemRead` or `MemWrite` was called with an address outside 0 to 127, a cell the spec says does not exist (R51: the
  address is "caller-validated, not self-validated"). Raised by `memRead` and `memWrite`; their only callers, `LOAD` and
  `STOR`, check the address first, so no step reaches it. Safe. -/
  | missingCell (a : Int)
  deriving DecidableEq, Repr

/-- What the model gives no meaning. No instruction of this core is refused; the others are raised by the host interface. -/
inductive Refusal where
  /-- An arm of `exec` that has no meaning yet; raised by no arm now. Safe. -/
  | notModelled (mnemonic : String)
  /-- A launch or reset with more than `2^24` program words (D21). Raised by `launch` and `resetEdge`. Safe. -/
  | programTooLong (n : Nat)
  /-- A launch whose memory image, of any length, has a value outside 16 bits (R244, D10). Raised by `loadImage`, and so by
  `launch` and `boot`. Safe. -/
  | imageValueOutOfRange (v : Int)
  /-- A launch or reset with an opcode map that is no bijection or moves `SAR` or `STOP` (R73, R74).
  Raised by `launch` and `resetEdge`. Safe. -/
  | illegalOpcodeMap
  /-- A host memory access while `Running` (R43, R243). Raised by the host port and `clockEdge`. Safe. -/
  | hostAccessWhileRunning
  /-- A host memory write while halted and not in reset (R43). Raised by the host port and `clockEdge`. Safe. -/
  | hostWriteOutsideReset
  deriving DecidableEq, Repr

/-- The machine right after reset, with nothing loaded: `Running`, `pc = 0`, `count = 0` (R36); data memory all zero (R37);
no program, the default opcode map, no trace. Registers at the values of `Config.resetValues` (R38, entries 1 to 7). -/
def State.reset : State :=
  { regs := Config.resetValues.r, ra := Config.resetValues.ra, rp := Config.resetValues.rp
    pc := 0, count := 0, status := .running
    mem := [], prog := [], debug := false, opcodeMap := defaultOpcodeMap
    memImageMalformed := false, trace := [] }

end Sys2Proof.Machine
end

