-- ==== Sys2Proof/Machine/Flags.lean ====
section
/-! DEFINITION. The tests the core computes. It has no flags and no condition codes (R30): `BSLT` compares inside its own step. -/

namespace Sys2Proof.Machine

/-- `a < b` on register values, a signed comparison (R11, R136, D25). -/
def signedLess (a b : Word) : Bool := decide (a.toInt < b.toInt)

/-- The ceiling test: `count > 1024` (R106). -/
def overCeiling (count : Nat) : Bool := decide (count > Config.ceiling)

/-- `pc` is in range: `0 <= pc < N` (R26). -/
def inProgram (pc : Int) (n : Nat) : Bool := decide (0 ≤ pc ∧ pc < n)

end Sys2Proof.Machine
end

