-- ==== Sys2Proof/Machine/Operands.lean ====
section
/-! DEFINITION. Every operand form of R76 and the arithmetic of R11: register index, shift amount, data address, immediate. -/

namespace Sys2Proof.Machine

/-- `wrapW(v)`: the 16-bit two's-complement word congruent to `v` modulo `2^16` (R11). -/
def wrapW (v : Int) : Word := BitVec.ofInt 16 v

/-- `floor(a / b)`, rounding toward negative infinity (R11). -/
def floorDiv (a b : Int) : Int := Int.fdiv a b

/-- The register index of an operand field: `f` itself when `f <= 7`, else the check fails (R78). -/
def registerIndex? (f : Field) : Option (Fin 8) :=
  if h : f.toNat ≤ 7 then some ⟨f.toNat, by omega⟩ else none

/-- The value of a field read as an immediate, before the range check: over 3, subtract 8 (R77). -/
def rawImmediate (f : Field) : Int := if f.toNat ≤ 3 then f.toNat else f.toNat - 8

/-- The signed immediate of an operand field: the result of the reading must lie in `[-4, 3]` (R77). -/
def immediate? (f : Field) : Option Int :=
  if -4 ≤ rawImmediate f ∧ rawImmediate f ≤ 3 then some (rawImmediate f) else none

/-- The shift amount in a register value: the whole signed value, which must not be negative (R172). -/
def shiftAmount? (v : Word) : Option Nat :=
  if 0 ≤ v.toInt then some v.toInt.toNat else none

/-- The data address in a register value: the signed value, which must lie in `[0, 127]` (R182). -/
def dataAddress? (v : Word) : Option Int :=
  if 0 ≤ v.toInt ∧ v.toInt ≤ 127 then some v.toInt else none

/-- The operand a trace record shows: the signed immediate for `MOVI` and `ADDI`, nothing for `B`, the register index
`f` for every other mnemonic (R225). `STOP` is never traced (R224, C7). -/
def traceOperand (m : Mnemonic) (f : Field) : Option Int :=
  match m.operandClass with
  | .immediate => immediate? f
  | .control => none
  | _ => some f.toNat

end Sys2Proof.Machine
end

