-- ==== Sys2Proof/Machine/Ops.lean ====
section
/-! DEFINITION. The shared operations: memory, registers, raising an error, committing an instruction, fetch and decode. -/

namespace Sys2Proof.Machine

/-- The cell at an address; an unlisted address reads as 0 (R33, R37). -/
def Memory.read (m : Memory) (a : Nat) : Word :=
  match m with
  | [] => 0#16
  | (b, v) :: rest => if a = b then v else Memory.read rest a

/-- Put a cell into the list, keeping addresses rising; the value 0 is not listed. -/
def Memory.write (m : Memory) (a : Nat) (v : Word) : Memory :=
  match m with
  | [] => if v = 0#16 then [] else [(a, v)]
  | (b, u) :: rest =>
    if a < b then (if v = 0#16 then (b, u) :: rest else (a, v) :: (b, u) :: rest)
    else if a = b then (if v = 0#16 then rest else (a, v) :: rest)
    else (b, u) :: Memory.write rest a v

/-- The canonical form of the data memory: addresses strictly rising and below 128, no cell equal to 0. -/
abbrev Memory.wf (m : Memory) : Prop :=
  m.Pairwise (fun p q => p.1 < q.1) ∧ ∀ p ∈ m, p.1 < Config.memSize ∧ p.2 ≠ 0#16

/-- The memory whose cells from address `a` on hold the listed words. -/
def Memory.ofWords (a : Nat) (ws : List Word) : Memory :=
  match ws with
  | [] => []
  | w :: rest => if w = 0#16 then Memory.ofWords (a + 1) rest else (a, w) :: Memory.ofWords (a + 1) rest

/-- `MemRead(a, 1)` (R51). It requires `0 <= a <= 127`; the caller checks, and at another address there is no cell. -/
def memRead (m : Memory) (a : Int) : Except Fault Word :=
  if 0 ≤ a ∧ a ≤ 127 then .ok (m.read a.toNat) else .error (.missingCell a)

/-- `MemWrite(a, 1, v)` (R51). It requires `0 <= a <= 127`; the caller checks, and at another address there is no cell. -/
def memWrite (m : Memory) (a : Int) (v : Word) : Except Fault Memory :=
  if 0 ≤ a ∧ a ≤ 127 then .ok (m.write a.toNat v) else .error (.missingCell a)

/-- `R[i]` (R12). -/
def State.reg (s : State) (i : Fin 8) : Word := s.regs[i]

/-- `R[Ra]`, the accumulator (R15). -/
def State.acc (s : State) : Word := s.reg s.ra

/-- `R[Ra] <- v` (R12, R21). -/
def State.setAcc (s : State) (v : Word) : State := { s with regs := s.regs.set s.ra v }

/-- `Ra <- r` (R22). -/
def State.setRa (s : State) (r : Fin 8) : State := { s with ra := r }

/-- `Rp <- v` (R23). -/
def State.setRp (s : State) (v : Int) : State := { s with rp := v }

/-- The data memory replaced. -/
def State.setMem (s : State) (m : Memory) : State := { s with mem := m }

/-- Entry to an error halt, the core's only exception: `status` records the cause, nothing else changes, control goes
nowhere (R13, R108, R217). -/
def raise (c : ErrorCause) (s : State) : State := { s with status := .haltedError c }

/-- Entry to a normal halt (R102, R201). -/
def haltNormally (c : NormalCause) (s : State) : State := { s with status := .haltedNormal c }

/-- Return from a halt: there is none but reset, which puts the FSM, `pc`, `count`, the registers and the trace at their
reset values (R218, R240). Configuration and data memory come from the host: `resetEdge` and `launch`. -/
def resetCore (rv : ResetValues) (s : State) : State :=
  { s with regs := rv.r, ra := rv.ra, rp := rv.rp, pc := 0, count := 0, status := .running, trace := [] }

/-- The loop's advance: `pc <- (if branch then Rp else pc) + 1` and `count <- count + 1` (R104, R105). -/
def advance (branch : Bool) (s : State) : State :=
  { s with pc := (if branch then s.rp else s.pc) + 1, count := s.count + 1 }

/-- The trace record of an instruction that has committed and advanced (R225). -/
def traceRecord (m : Mnemonic) (f : Field) (s : State) : TraceRecord :=
  { mnemonic := m, operand := traceOperand m f, regs := s.regs, ra := s.ra, rp := s.rp, pc := s.pc }

/-- Emit one trace record when `debug` is true (R110, R224). -/
def emitTrace (m : Mnemonic) (f : Field) (s : State) : State :=
  if s.debug then { s with trace := s.trace ++ [traceRecord m f s] } else s

/-- The ceiling: halt when `count > 1024`, after the commit and the trace (R106). -/
def applyCeiling (s : State) : State :=
  if overCeiling s.count then raise .instructionCountExceeded s else s

/-- The loop's part of a committing step, given the state with the handler's writes: advance, trace, ceiling
(R101, R104 to R106, R110). -/
def retire (m : Mnemonic) (f : Field) (branch : Bool) (s : State) : State :=
  applyCeiling (emitTrace m f (advance branch s))

/-- A handler succeeded with these writes and this branch request (R107): the instruction commits. -/
def commit (m : Mnemonic) (f : Field) (branch : Bool) (s : State) : Host.Outcome State Fault Refusal :=
  .next (retire m f branch s)

/-- A handler failed: `raise OperandOutOfRange(m, f)` (R13, R108). -/
def failOperand (m : Mnemonic) (f : Field) (s : State) : Host.Outcome State Fault Refusal :=
  .next (raise (.operandOutOfRange m f) s)

/-- The class check of the register-operand class (R138); `k` is the handler's work on the register index. -/
def withRegister (m : Mnemonic) (f : Field) (s : State) (k : Fin 8 → Host.Outcome State Fault Refusal) :
    Host.Outcome State Fault Refusal :=
  match registerIndex? f with
  | some r => k r
  | none => failOperand m f s

/-- The class check of the shift class (R172): `f <= 7` first, then `R[r] >= 0`; `k` works on the amount. -/
def withShiftAmount (m : Mnemonic) (f : Field) (s : State) (k : Nat → Host.Outcome State Fault Refusal) :
    Host.Outcome State Fault Refusal :=
  withRegister m f s fun r =>
    match shiftAmount? (s.reg r) with
    | some n => k n
    | none => failOperand m f s

/-- The class check of the memory-operand class (R182): `f <= 7` first, then `0 <= R[r] <= 127`; `k` works on the address. -/
def withDataAddress (m : Mnemonic) (f : Field) (s : State) (k : Int → Host.Outcome State Fault Refusal) :
    Host.Outcome State Fault Refusal :=
  withRegister m f s fun r =>
    match dataAddress? (s.reg r) with
    | some a => k a
    | none => failOperand m f s

/-- The class check of the immediate class (R192); `k` works on the signed immediate. -/
def withImmediate (m : Mnemonic) (f : Field) (s : State) (k : Int → Host.Outcome State Fault Refusal) :
    Host.Outcome State Fault Refusal :=
  match immediate? f with
  | some imm => k imm
  | none => failOperand m f s

/-- `Prog(pc)`, read only when `0 <= pc < N` (R42, R103). -/
def fetch (s : State) : Option InstrWord :=
  if inProgram s.pc s.prog.length then s.prog[s.pc.toNat]? else none

/-- The status of a rejected word: `DecodeFailure(op)` (R13, R212). -/
def decodeFailureCause (e : DecodeError) : ErrorCause :=
  match e with
  | .opcodeNotInTable op => .decodeFailure op

/-- What a step does before dispatch, in the order of R109: a halted core stays as it is (R100); `pc` out of range halts
normally (R102); an opcode missing from the map raises `DecodeFailure` (R212); otherwise there is an instruction to
execute (R103). `.error s'` says that the step ends in `s'` without executing an instruction. -/
def nextInstr (s : State) : Except State Instr :=
  if s.status = .running then
    match fetch s with
    | none => .error (haltNormally .endOfProgram s)
    | some w =>
      match decode s.opcodeMap w with
      | .error e => .error (raise (decodeFailureCause e) s)
      | .ok i => .ok i
  else .error s

/-- The program store with the word `w` at address `a`, grown with zero words where it is shorter. -/
def placeWord (prog : List InstrWord) (a : Nat) (w : InstrWord) : List InstrWord :=
  match prog, a with
  | [], 0 => [w]
  | _ :: rest, 0 => w :: rest
  | [], a + 1 => 0#8 :: placeWord [] a w
  | u :: rest, a + 1 => u :: placeWord rest a w

/-- The state with the word `w` stored where the next step fetches: the core running, `pc` at an address of the program
store (kept unless it is negative), `w` at that address (entry 5). -/
def placeAtFetch (s : State) (w : InstrWord) : State :=
  { s with status := .running, pc := s.pc.toNat, prog := placeWord s.prog s.pc.toNat w }

end Sys2Proof.Machine
end

