-- ==== Sys2Proof/Machine/Control.lean ====
section
/-! DEFINITION. The control class: B, STOP (R200, R201). Both ignore the operand field. -/

namespace Sys2Proof.Machine

/-- `B`: branch through `Rp`, landing at `Rp + 1`; it never fails (R200). -/
def execB (f : Field) (s : State) : Host.Outcome State Fault Refusal :=
  commit .b f true s

/-- `STOP`: `status <- HaltedNormal(Stop)`; `pc`, `count` and everything else stay, and nothing is traced (R103, R201).
The field plays no part. -/
def execStop (_f : Field) (s : State) : Host.Outcome State Fault Refusal :=
  .next (haltNormally .stop s)

end Sys2Proof.Machine
end

