-- ==== Sys2Proof/Machine/Immediate.lean ====
section
/-! DEFINITION. The immediate class: MOVI, ADDI (R190 to R192). -/

namespace Sys2Proof.Machine

/-- `MOVI imm`: `R[Ra] <- imm` (R190). -/
def execMovi (f : Field) (s : State) : Host.Outcome State Fault Refusal :=
  withImmediate .movi f s fun imm => commit .movi f false (s.setAcc (wrapW imm))

/-- `ADDI imm`: `R[Ra] <- wrapW(R[Ra] + imm)` (R191). -/
def execAddi (f : Field) (s : State) : Host.Outcome State Fault Refusal :=
  withImmediate .addi f s fun imm => commit .addi f false (s.setAcc (wrapW (s.acc.toInt + imm)))

end Sys2Proof.Machine
end

