-- ==== Sys2Proof/Machine/MemoryOperand.lean ====
section
/-! DEFINITION. The memory-operand class: LOAD, STOR (R180 to R182). -/

namespace Sys2Proof.Machine

/-- `LOAD r`: `R[Ra] <- MemRead(R[r], 1)` (R180). The address is checked first, so the primitive finds a cell. -/
def execLoad (f : Field) (s : State) : Host.Outcome State Fault Refusal :=
  withDataAddress .load f s fun a =>
    match memRead s.mem a with
    | .ok v => commit .load f false (s.setAcc v)
    | .error e => .fault e

/-- `STOR r`: `MemWrite(R[r], 1, R[Ra])` (R181). The address is checked first, so the primitive finds a cell. -/
def execStor (f : Field) (s : State) : Host.Outcome State Fault Refusal :=
  withDataAddress .stor f s fun a =>
    match memWrite s.mem a s.acc with
    | .ok m => commit .stor f false (s.setMem m)
    | .error e => .fault e

end Sys2Proof.Machine
end

