-- ==== Sys2Proof/Machine/RegisterOperand.lean ====
section
/-! DEFINITION. The register-operand class: SAR, ADD, MOV, NAND, SUB, MLT, BSLT, SPC (R130 to R138). -/

namespace Sys2Proof.Machine

/-- `SAR r`: `Ra <- r` (R130). -/
def execSar (f : Field) (s : State) : Host.Outcome State Fault Refusal :=
  withRegister .sar f s fun r => commit .sar f false (s.setRa r)

/-- `ADD r`: `R[Ra] <- wrapW(R[Ra] + R[r])` (R131). -/
def execAdd (f : Field) (s : State) : Host.Outcome State Fault Refusal :=
  withRegister .add f s fun r => commit .add f false (s.setAcc (wrapW (s.acc.toInt + (s.reg r).toInt)))

/-- `MOV r`: `R[Ra] <- R[r]` (R132). -/
def execMov (f : Field) (s : State) : Host.Outcome State Fault Refusal :=
  withRegister .mov f s fun r => commit .mov f false (s.setAcc (s.reg r))

/-- `NAND r`: `R[Ra] <- ~(R[Ra] & R[r])` on the 16-bit patterns (R133). -/
def execNand (f : Field) (s : State) : Host.Outcome State Fault Refusal :=
  withRegister .nand f s fun r => commit .nand f false (s.setAcc (~~~(s.acc &&& s.reg r)))

/-- `SUB r`: `R[Ra] <- wrapW(R[Ra] - R[r])` (R134). -/
def execSub (f : Field) (s : State) : Host.Outcome State Fault Refusal :=
  withRegister .sub f s fun r => commit .sub f false (s.setAcc (wrapW (s.acc.toInt - (s.reg r).toInt)))

/-- `MLT r`: `R[Ra] <- wrapW(R[Ra] * R[r])` (R135). -/
def execMlt (f : Field) (s : State) : Host.Outcome State Fault Refusal :=
  withRegister .mlt f s fun r => commit .mlt f false (s.setAcc (wrapW (s.acc.toInt * (s.reg r).toInt)))

/-- `BSLT r`: request a branch through `Rp` when `R[Ra] < R[r]`, signed; no write (R136). -/
def execBslt (f : Field) (s : State) : Host.Outcome State Fault Refusal :=
  withRegister .bslt f s fun r => commit .bslt f (signedLess s.acc (s.reg r)) s

/-- `SPC r`: `Rp <- pc + R[r]`, with the address of the `SPC` itself, exactly (R137). -/
def execSpc (f : Field) (s : State) : Host.Outcome State Fault Refusal :=
  withRegister .spc f s fun r => commit .spc f false (s.setRp (s.pc + (s.reg r).toInt))

end Sys2Proof.Machine
end

