-- ==== Sys2Proof/Machine/Shift.lean ====
section
/-! DEFINITION. The shift class: SLL, SRL (R170 to R172). -/

namespace Sys2Proof.Machine

/-- `SLL r`: `R[Ra] <- wrapW(R[Ra] * 2^n)` with `n = R[r]`, never masked (R170). -/
def execSll (f : Field) (s : State) : Host.Outcome State Fault Refusal :=
  withShiftAmount .sll f s fun n => commit .sll f false (s.setAcc (wrapW (s.acc.toInt * 2 ^ n)))

/-- `SRL r`: `R[Ra] <- floor(R[Ra] / 2^n)` with `n = R[r]`: the arithmetic, sign-preserving right shift (R171). -/
def execSrl (f : Field) (s : State) : Host.Outcome State Fault Refusal :=
  withShiftAmount .srl f s fun n => commit .srl f false (s.setAcc (wrapW (floorDiv s.acc.toInt (2 ^ n))))

end Sys2Proof.Machine
end

