-- ==== Sys2Proof/Machine/Dispatch.lean ====
section
/-! DEFINITION. The dispatch of an instruction to its meaning, one arm per constructor (R101, R107). -/

namespace Sys2Proof.Machine

/-- Execute one instruction in a running core: the handler, then the loop's commit, or the halt (R101). -/
def exec (i : Instr) (s : State) : Host.Outcome State Fault Refusal :=
  match i with
  | .sar f => Sys2Proof.Machine.execSar f s
  | .add f => Sys2Proof.Machine.execAdd f s
  | .mov f => Sys2Proof.Machine.execMov f s
  | .nand f => Sys2Proof.Machine.execNand f s
  | .sll f => Sys2Proof.Machine.execSll f s
  | .srl f => Sys2Proof.Machine.execSrl f s
  | .load f => Sys2Proof.Machine.execLoad f s
  | .stor f => Sys2Proof.Machine.execStor f s
  | .sub f => Sys2Proof.Machine.execSub f s
  | .mlt f => Sys2Proof.Machine.execMlt f s
  | .bslt f => Sys2Proof.Machine.execBslt f s
  | .movi f => Sys2Proof.Machine.execMovi f s
  | .addi f => Sys2Proof.Machine.execAddi f s
  | .spc f => Sys2Proof.Machine.execSpc f s
  | .b f => Sys2Proof.Machine.execB f s
  | .stop f => Sys2Proof.Machine.execStop f s

end Sys2Proof.Machine
end

