-- ==== Sys2Proof/Machine/Step.lean ====
section
/-! DEFINITION. One step of the control FSM (R101) and the placing of a word where the next step fetches. -/

namespace Sys2Proof.Machine

/-- One step (R100 to R109): what stands before dispatch, then the instruction. -/
def step (s : State) : Host.Outcome State Fault Refusal :=
  match nextInstr s with
  | .error s' => .next s'
  | .ok i => exec i s

/-- `s` with the instruction of `nbits` bits whose value is `w` stored where the next step fetches (entry 5). -/
def State.withFetchWord (s : State) (nbits w : Nat) : State :=
  placeAtFetch s (BitVec.ofNat 8 (w % 2 ^ nbits))

end Sys2Proof.Machine
end

