-- ==== Sys2Proof/Machine/Ports.lean ====
section
/-! DEFINITION. The host interface (R40 to R46, R240 to R244): launch, reset edges, the host memory port, outputs, clock edges. -/

namespace Sys2Proof.Machine

/-- What the host supplies for one run (R242, R243) with the model arguments of R38. -/
structure Launch where
  /-- The `N` program words; `prog_len` is their number (R41, R242). -/
  program     : List InstrWord
  /-- The values of the memory image, as read from its lines (R242). -/
  image       : List Int
  debug       : Bool
  opcodeMap   : OpcodeMap
  resetValues : ResetValues
  deriving DecidableEq, Repr

/-- The inputs of one clock edge (R40 to R44). The program store stands for `imem_data` at every address. -/
structure Inputs where
  rst               : Bool
  program           : List InstrWord
  debug             : Bool
  opcodeMap         : OpcodeMap
  memImageMalformed : Bool
  hmemWe            : Bool
  hmemAddr          : BitVec 7
  hmemWdata         : Word
  deriving DecidableEq, Repr

/-- The status and observation outputs, and the copy of the loader's report (R42, R44, R45). -/
structure Outputs where
  statusCode        : BitVec 3
  errMnemonic       : Field
  errOperand        : Field
  r                 : Vector Word 8
  ra                : Fin 8
  rp                : Int
  pc                : Int
  count             : Nat
  imemAddr          : Int
  memImageMalformed : Bool
  deriving DecidableEq, Repr

/-- The record fields of the trace port, `t_op` to `t_pc` (R225). -/
structure TraceFields where
  op      : Field
  operand : Option Int
  r       : Vector Word 8
  ra      : Fin 8
  rp      : Int
  pc      : Int
  deriving DecidableEq, Repr

/-- The trace port: `trace_valid` and the record, which R46 calls valid in a step that emits a trace line. DESIGN CHOICE
(entry 22): the spec does not say what the record fields show when `trace_valid` is 0, and the model gives them no value. -/
structure TracePort where
  valid  : Bool
  record : Option TraceFields
  deriving DecidableEq, Repr

/-- The numeric code of a status (R28, D14). -/
def statusCode (st : Status) : BitVec 3 :=
  match st with
  | .running => 0
  | .haltedNormal .stop => 1
  | .haltedNormal .endOfProgram => 2
  | .haltedError (.decodeFailure _) => 3
  | .haltedError (.operandOutOfRange _ _) => 4
  | .haltedError .instructionCountExceeded => 5

/-- `err_mnemonic`: the opcode value of the instruction that failed, 0 for every other status (R45). -/
def errMnemonic (om : OpcodeMap) (st : Status) : Field :=
  match st with
  | .haltedError (.operandOutOfRange m _) => opcodeOf om m
  | _ => 0

/-- `err_operand`: the raw operand field of the instruction that failed, 0 for every other status (R45). -/
def errOperand (st : Status) : Field :=
  match st with
  | .haltedError (.operandOutOfRange _ f) => f
  | _ => 0

/-- The outputs, which show the current state at all times (R45). -/
def outputs (s : State) : Outputs :=
  { statusCode := statusCode s.status
    errMnemonic := errMnemonic s.opcodeMap s.status
    errOperand := errOperand s.status
    r := s.regs, ra := s.ra, rp := s.rp, pc := s.pc, count := s.count
    imemAddr := s.pc
    memImageMalformed := s.memImageMalformed }

/-- The port fields of a trace record under an opcode map (R225). -/
def traceFields (om : OpcodeMap) (r : TraceRecord) : TraceFields :=
  { op := opcodeOf om r.mnemonic, operand := r.operand, r := r.regs, ra := r.ra, rp := r.rp, pc := r.pc }

/-- The trace port in a step from `s` to `t`: valid, with the record, when the step emitted one (R46, R225). DESIGN CHOICE
(entry 22): in a step that emits none the record fields have no value, where the spec is silent. -/
def tracePort (s t : State) : TracePort :=
  match (t.trace.drop s.trace.length).head? with
  | some r => { valid := true, record := some (traceFields t.opcodeMap r) }
  | none => { valid := false, record := none }

/-- The loader drives its report input, and the output of the same name shows the level at once (R44, entry 21). -/
def driveLoaderReport (b : Bool) (s : State) : State := { s with memImageMalformed := b }

/-- `hmem_rdata`: the host reads the data memory only when the core has halted (R43, R227). -/
def hostRead (s : State) (a : BitVec 7) : Except Refusal Word :=
  if s.status = .running then .error .hostAccessWhileRunning else .ok (s.mem.read a.toNat)

/-- A host write outside reset is refused, under the name of what it breaks (R43, R243, entry 16). -/
def hostWriteRefusal (s : State) : Refusal :=
  if s.status = .running then .hostAccessWhileRunning else .hostWriteOutsideReset

/-- The state after a clock edge with `rst` high: the core reset, the configuration sampled, one host write of the image
accepted (R40, R41, R43, R240, entry 19), with the loader's report as this edge drives it (R44, entry 21). -/
def resetState (rv : ResetValues) (inp : Inputs) (s : State) : State :=
  { resetCore rv (driveLoaderReport inp.memImageMalformed s) with
    mem := if inp.hmemWe then s.mem.write inp.hmemAddr.toNat inp.hmemWdata else s.mem
    prog := inp.program
    debug := inp.debug
    opcodeMap := inp.opcodeMap }

/-- A clock edge with `rst` high; a configuration the hardware does not have is refused (R73, D21). -/
def resetEdge (rv : ResetValues) (inp : Inputs) (s : State) : Host.Outcome State Fault Refusal :=
  if inp.program.length > Config.maxProgramLength then .refused (.programTooLong inp.program.length)
  else if ¬ inp.opcodeMap.legal then .refused .illegalOpcodeMap
  else .next (resetState rv inp s)

/-- One clock edge: reset when `rst` is high, else one step, in which the host may not write (R40, R43, D30). Every edge
drives the loader's report input, running or not (R44, entry 21). -/
def clockEdge (rv : ResetValues) (inp : Inputs) (s : State) : Host.Outcome State Fault Refusal :=
  if inp.rst then resetEdge rv inp s
  else if inp.hmemWe then .refused (hostWriteRefusal s)
  else step (driveLoaderReport inp.memImageMalformed s)

/-- Clock edges one after another, stopping at the first fault or refusal. -/
def clockEdges (rv : ResetValues) (inps : List Inputs) (s : State) : Host.Outcome State Fault Refusal :=
  match inps with
  | [] => .next s
  | inp :: rest =>
    match clockEdge rv inp s with
    | .next t => clockEdges rv rest t
    | .fault e => .fault e
    | .refused e => .refused e

/-- The memory image does not have exactly 128 values (R37, R214). -/
def imageMalformed (image : List Int) : Bool := decide (image.length ≠ Config.memSize)

/-- The first image value outside `[-32768, 32767]`, in an image of any length (R244, D10, entry 13). -/
def imageBadValue? (image : List Int) : Option Int :=
  image.find? fun v => decide (v < -32768 ∨ 32767 < v)

/-- The 128 words the loader puts into the data memory: the image, or zeros where it is malformed (R37, R214). A value that
does not fit a cell is refused and never truncated (R244). -/
def loadImage (image : List Int) : Except Refusal (List Word) :=
  match imageBadValue? image with
  | some v => .error (.imageValueOutOfRange v)
  | none => .ok (if imageMalformed image then List.replicate Config.memSize 0 else image.map wrapW)

/-- The state in which a run starts, with the words `ws` loaded into the data memory (R36 to R39, R240). -/
def launchState (l : Launch) (ws : List Word) : State :=
  { regs := l.resetValues.r
    ra := l.resetValues.ra
    rp := l.resetValues.rp
    pc := 0
    count := 0
    status := .running
    mem := Memory.ofWords 0 ws
    prog := l.program
    debug := l.debug
    opcodeMap := l.opcodeMap
    memImageMalformed := imageMalformed l.image
    trace := [] }

/-- The boot sequence of R242 as one operation; a launch the hardware cannot take is refused (R244, R73, D21). -/
def launch (l : Launch) : Host.Outcome State Fault Refusal :=
  match loadImage l.image with
  | .error e => .refused e
  | .ok ws =>
    if l.program.length > Config.maxProgramLength then .refused (.programTooLong l.program.length)
    else if ¬ l.opcodeMap.legal then .refused .illegalOpcodeMap
    else .next (launchState l ws)

/-- The reset edge of a boot that writes the word `w` to the cell `a` (R242). -/
def bootInput (l : Launch) (a : Nat) (w : Word) : Inputs :=
  { rst := true, program := l.program, debug := l.debug, opcodeMap := l.opcodeMap
    memImageMalformed := imageMalformed l.image
    hmemWe := true, hmemAddr := BitVec.ofNat 7 a, hmemWdata := w }

/-- The reset edges that write the words from cell `a` on. -/
def bootInputsFrom (l : Launch) (a : Nat) (ws : List Word) : List Inputs :=
  match ws with
  | [] => []
  | w :: rest => bootInput l a w :: bootInputsFrom l (a + 1) rest

/-- The edges of the boot sequence of R242: 128 reset edges, each writing one of the words through the host port. -/
def bootInputs (l : Launch) (ws : List Word) : List Inputs := bootInputsFrom l 0 ws

/-- The boot sequence of R242 edge by edge, from any state; an image that cannot be loaded is refused before the first edge
(R244). -/
def boot (l : Launch) (s : State) : Host.Outcome State Fault Refusal :=
  match loadImage l.image with
  | .error e => .refused e
  | .ok ws => clockEdges l.resetValues (bootInputs l ws) s

/-- The launch whose state is `State.reset`: no program, an image of 128 zeros, no trace, the default opcode map. -/
def Launch.empty : Launch :=
  { program := [], image := List.replicate Config.memSize 0, debug := false
    opcodeMap := defaultOpcodeMap, resetValues := Config.resetValues }

end Sys2Proof.Machine
end

