-- ==== Sys2Proof/Safety.lean ====
section
/-! DEFINITION. Runs and what claims say about them: halting, the machine's invariants, and what a committing instruction leaves. -/

namespace Sys2Proof.Machine

/-- The state `k` steps later, stopping at the first fault or refusal (R16, R111). -/
def run (k : Nat) (s : State) : Host.Outcome State Fault Refusal :=
  match k with
  | 0 => .next s
  | k + 1 =>
    match step s with
    | .next t => run k t
    | .fault e => .fault e
    | .refused e => .refused e

/-- The run is over: a halted status (R111). -/
abbrev State.halted (s : State) : Prop := s.status ≠ .running

/-- The run ended normally, by `STOP` or at the end of the program; an error halt is final but not normal (R28). -/
abbrev State.haltedNormally (s : State) : Prop :=
  s.status = .haltedNormal .stop ∨ s.status = .haltedNormal .endOfProgram

/-- A status the hardware can show: every one but `DecodeFailure`, which no 8-bit word raises (R212). -/
abbrev State.noDecodeFailure (s : State) : Prop :=
  ∀ op, s.status ≠ .haltedError (.decodeFailure op)

/-- What a run is observed by (R111): status, registers, `Ra`, `Rp`, `pc`, `count`, the 128 cells, the trace records. -/
structure Observation where
  status : Status
  regs   : Vector Word 8
  ra     : Fin 8
  rp     : Int
  pc     : Int
  count  : Nat
  cells  : List Word
  trace  : List TraceRecord
  deriving DecidableEq, Repr

/-- The observation of a state (R111). -/
def observe (s : State) : Observation :=
  { status := s.status, regs := s.regs, ra := s.ra, rp := s.rp, pc := s.pc, count := s.count
    cells := (List.range Config.memSize).map s.mem.read, trace := s.trace }

/-- The configuration and the memory have the form the hardware gives them: the data memory is canonical, the opcode map
legal (R73, R74), the program not longer than `2^24` words (D21). -/
abbrev State.formOk (s : State) : Prop :=
  s.mem.wf ∧ s.opcodeMap.legal ∧ s.prog.length ≤ Config.maxProgramLength

/-- The rule on `count` (R27, R112): at most 1025, and 1025 exactly when the run has halted by the ceiling. -/
abbrev State.countOk (s : State) : Prop :=
  s.count ≤ 1025 ∧ (s.count = 1025 ↔ s.status = .haltedError .instructionCountExceeded)

/-- `pc` and `Rp` fit 32-bit signed registers, and so does the landing address `Rp + 1` (R24, D6). -/
abbrev State.fits32 (s : State) : Prop :=
  -(2 ^ 31) ≤ s.pc ∧ s.pc < 2 ^ 31 ∧ -(2 ^ 31) ≤ s.rp ∧ s.rp + 1 < 2 ^ 31

/-- The configuration of the run is the same in both states (R35). -/
abbrev sameConfig (s t : State) : Prop :=
  t.prog = s.prog ∧ t.debug = s.debug ∧ t.opcodeMap = s.opcodeMap ∧ t.memImageMalformed = s.memImageMalformed

/-- Every register but `R[i]` holds in `t` what it holds in `s`. -/
abbrev otherRegsSame (i : Fin 8) (s t : State) : Prop := ∀ j : Fin 8, j ≠ i → t.reg j = s.reg j

/-- Every register holds in `t` what it holds in `s`. -/
abbrev regsSame (s t : State) : Prop := ∀ j : Fin 8, t.reg j = s.reg j

/-- Every data address, existing or not, reads in `t` as in `s`. -/
abbrev memSame (s t : State) : Prop := ∀ a : Int, memRead t.mem a = memRead s.mem a

/-- What the loop does around a committed instruction that started in `s` and ended in `t` (R104 to R106, R110, R225):
`pc` goes to `base + 1`, `count` goes up by one, the run halts when the new count exceeds 1024 and keeps its status
otherwise, one record of the state after the step is traced when `debug` is on, and the configuration stays. -/
abbrev loopCommitted (m : Mnemonic) (operand : Option Int) (base : Int) (s t : State) : Prop :=
  t.pc = base + 1 ∧ t.count = s.count + 1 ∧
  t.status = (if s.count + 1 > 1024 then Status.haltedError .instructionCountExceeded else s.status) ∧
  t.trace = (if s.debug then s.trace ++ [⟨m, operand, t.regs, t.ra, t.rp, t.pc⟩] else s.trace) ∧
  sameConfig s t

/-- `u` is `wrapW(v)`: in the signed 16-bit range and congruent to `v` modulo `2^16` (R11). -/
abbrev isWrap (u v : Int) : Prop := (2 ^ 16 : Int) ∣ v - u ∧ -(2 ^ 15) ≤ u ∧ u ≤ 2 ^ 15 - 1

/-- `s` halted by `OperandOutOfRange(m, f)`: nothing but `status` differs (R13, R108). -/
abbrev haltedOutOfRange (m : Mnemonic) (f : Field) (s : State) : State :=
  { s with status := .haltedError (.operandOutOfRange m f) }

/-- `s` halted because `pc` is outside the program: nothing but `status` differs (R102). -/
abbrev haltedEndOfProgram (s : State) : State := { s with status := .haltedNormal .endOfProgram }

/-- The operand check of the instruction fails in this state, class by class (R211). -/
def operandFails (i : Instr) (s : State) : Prop :=
  match i with
  | .sar f => f.toNat > 7
  | .add f => f.toNat > 7
  | .mov f => f.toNat > 7
  | .nand f => f.toNat > 7
  | .sub f => f.toNat > 7
  | .mlt f => f.toNat > 7
  | .bslt f => f.toNat > 7
  | .spc f => f.toNat > 7
  | .sll f => f.toNat > 7 ∨ ∃ r : Fin 8, r.val = f.toNat ∧ (s.reg r).toInt < 0
  | .srl f => f.toNat > 7 ∨ ∃ r : Fin 8, r.val = f.toNat ∧ (s.reg r).toInt < 0
  | .load f => f.toNat > 7 ∨ ∃ r : Fin 8, r.val = f.toNat ∧ ((s.reg r).toInt < 0 ∨ 127 < (s.reg r).toInt)
  | .stor f => f.toNat > 7 ∨ ∃ r : Fin 8, r.val = f.toNat ∧ ((s.reg r).toInt < 0 ∨ 127 < (s.reg r).toInt)
  | .movi f => f.toNat ≥ 12
  | .addi f => f.toNat ≥ 12
  | .b _ => False
  | .stop _ => False

end Sys2Proof.Machine
end

