-- ==== Sys2Proof/Certificates/Slice0/Obligations.lean ====
section
/-! DEFINITION. The statements for the provers, from the numbered rules of spec/. -/

open Sys2Proof Sys2Proof.Machine

/-! ### Encoding -/

/-- R75: under the default opcode map the opcode values are assigned in the order the source lists the mnemonics. -/
def Obligations.DefaultMapDecodesEveryOpcode : Prop :=
  ∀ f : Field,
    decode defaultOpcodeMap (0b0000#4 ++ f) = .ok (.sar f) ∧
    decode defaultOpcodeMap (0b0001#4 ++ f) = .ok (.add f) ∧
    decode defaultOpcodeMap (0b0010#4 ++ f) = .ok (.mov f) ∧
    decode defaultOpcodeMap (0b0011#4 ++ f) = .ok (.nand f) ∧
    decode defaultOpcodeMap (0b0100#4 ++ f) = .ok (.sll f) ∧
    decode defaultOpcodeMap (0b0101#4 ++ f) = .ok (.srl f) ∧
    decode defaultOpcodeMap (0b0110#4 ++ f) = .ok (.load f) ∧
    decode defaultOpcodeMap (0b0111#4 ++ f) = .ok (.stor f) ∧
    decode defaultOpcodeMap (0b1000#4 ++ f) = .ok (.sub f) ∧
    decode defaultOpcodeMap (0b1001#4 ++ f) = .ok (.mlt f) ∧
    decode defaultOpcodeMap (0b1010#4 ++ f) = .ok (.bslt f) ∧
    decode defaultOpcodeMap (0b1011#4 ++ f) = .ok (.movi f) ∧
    decode defaultOpcodeMap (0b1100#4 ++ f) = .ok (.addi f) ∧
    decode defaultOpcodeMap (0b1101#4 ++ f) = .ok (.spc f) ∧
    decode defaultOpcodeMap (0b1110#4 ++ f) = .ok (.b f) ∧
    decode defaultOpcodeMap (0b1111#4 ++ f) = .ok (.stop f)

/-- Words of the decoder's test vectors (95_test_vectors.md), written out bit by bit, decode as the vectors say. -/
def Obligations.WordsWrittenOutDecode : Prop :=
  decode defaultOpcodeMap 0b00000101#8 = .ok (.sar 5) ∧
  decode defaultOpcodeMap 0b00110111#8 = .ok (.nand 7) ∧
  decode defaultOpcodeMap 0b01000001#8 = .ok (.sll 1) ∧
  decode defaultOpcodeMap 0b01110010#8 = .ok (.stor 2) ∧
  decode defaultOpcodeMap 0b10110100#8 = .ok (.movi 4) ∧
  decode defaultOpcodeMap 0b11101001#8 = .ok (.b 9) ∧
  decode defaultOpcodeMap 0b11111111#8 = .ok (.stop 15)

/-- Decode and encode agree for every instruction, every field and every legal opcode map. -/
def Obligations.DecodeOfEncodeIsTheInstruction : Prop :=
  ∀ (om : OpcodeMap) (i : Instr), om.legal → decode om (encode om i) = .ok i

/-- R73: a legal opcode map is a bijection between the opcode values and the mnemonics, and every 8-bit word decodes to
exactly one instruction: the map's mnemonic for its upper four bits, with its lower four bits as the field. It encodes back
to the word. -/
def Obligations.EveryWordDecodesToOneInstruction : Prop :=
  ∀ om : OpcodeMap, om.legal →
    (∀ op : Field, ∃ m : Mnemonic, om[op.toNat]? = some m) ∧
    (∀ m : Mnemonic, ∃! op : Field, om[op.toNat]? = some m) ∧
    (∀ w : InstrWord, ∃ i : Instr, decode om w = .ok i ∧
      om[w.toNat / 16]? = some i.mnemonic ∧ i.field.toNat = w.toNat % 16 ∧ encode om i = w)

/-- R77: the immediate of a field is exactly the rule's table, and on the fields that the table fails `MOVI` and `ADDI`
fail with `OperandOutOfRange`; on the others `MOVI` writes the immediate and `ADDI` adds it, neither scaled nor shifted. -/
def Obligations.ImmediateFieldTable : Prop :=
  (∀ f : Field, some (immediate? f) =
    [some 0, some 1, some 2, some 3, some (-4), some (-3), some (-2), some (-1),
     some 0, some 1, some 2, some 3, none, none, none, none][f.toNat]?) ∧
  (∀ (s : State) (f : Field), immediate? f = none →
    exec (.movi f) s = .next (haltedOutOfRange .movi f s) ∧ exec (.addi f) s = .next (haltedOutOfRange .addi f s)) ∧
  (∀ (s : State) (f : Field) (imm : Int), immediate? f = some imm →
    (∃ t, exec (.movi f) s = .next t ∧ (t.reg s.ra).toInt = imm) ∧
    (∃ t, exec (.addi f) s = .next t ∧ isWrap (t.reg s.ra).toInt ((s.reg s.ra).toInt + imm)))

/-- R91: the canonical encoding. A register operand `r` stands in field `r`; an immediate in `[-4, 3]` in a field 0 to 7
whose immediate it is; `B` and `STOP` have field 0; the word is `op ++ f`. -/
def Obligations.CanonicalEncodingOfAssembly : Prop :=
  (∀ (m : Mnemonic) (r : Fin 8),
    (m.operandClass = .registerOperand ∨ m.operandClass = .shift ∨ m.operandClass = .memoryOperand) →
    ∃ i, assemble ⟨m, some (r.val : Int)⟩ = some i ∧ i.mnemonic = m ∧ i.field.toNat = r.val) ∧
  (∀ (m : Mnemonic) (n : Int), m.operandClass = .immediate → -4 ≤ n → n ≤ 3 →
    ∃ i, assemble ⟨m, some n⟩ = some i ∧ i.mnemonic = m ∧
      (i.field.toNat : Int) = (if 0 ≤ n then n else n + 8) ∧ immediate? i.field = some n) ∧
  (∀ m : Mnemonic, m.operandClass = .control →
    ∃ i, assemble ⟨m, none⟩ = some i ∧ i.mnemonic = m ∧ i.field = 0) ∧
  (∀ (om : OpcodeMap) (i : Instr), encode om i = opcodeOf om i.mnemonic ++ i.field)

/-- R80: two words do the same thing in every state exactly when they are aliases: `MOVI` and `ADDI` with a field 8 to 11
and with that field minus 8, any two `B`, any two `STOP`. -/
def Obligations.WordsActAlikeExactlyWhenAliases : Prop :=
  ∀ i j : Instr, (∀ s : State, exec i s = exec j s) ↔ i.canonical = j.canonical

/-- Every instruction does the same under any opcode map (R75's last paragraph): the map in the state plays no part. -/
def Obligations.MeaningsDoNotDependOnTheOpcodeMap : Prop :=
  ∀ (i : Instr) (s t : State) (om : OpcodeMap),
    exec i s = .next t → exec i { s with opcodeMap := om } = .next { t with opcodeMap := om }

/-! ### The register-operand class -/

/-- R130, `SAR r`; the last conjunct of the second clause is that `Ra` stays `r` until the next `SAR`. -/
def Obligations.SarSetsTheActiveRegister : Prop :=
  (∀ f : Field, decode defaultOpcodeMap (0b0000#4 ++ f) = .ok (.sar f)) ∧
  (∀ (s : State) (f : Field) (r : Fin 8), f.toNat = r.val → ∃ t, exec (.sar f) s = .next t ∧
    t.ra = r ∧ regsSame s t ∧ t.rp = s.rp ∧ memSame s t ∧ loopCommitted .sar (some (r.val : Int)) s.pc s t ∧
    (∀ (k : Nat) (u : State), run k t = .next u →
      (∀ (j : Nat) (v : State), j < k → run j t = .next v → ∀ g : Field, nextInstr v ≠ .ok (.sar g)) → u.ra = r)) ∧
  (∀ (s : State) (f : Field), f.toNat > 7 → exec (.sar f) s = .next (haltedOutOfRange .sar f s))

/-- R131, `ADD r`. -/
def Obligations.AddWrapsTheSumIntoTheAccumulator : Prop :=
  (∀ f : Field, decode defaultOpcodeMap (0b0001#4 ++ f) = .ok (.add f)) ∧
  (∀ (s : State) (f : Field) (r : Fin 8), f.toNat = r.val → ∃ t, exec (.add f) s = .next t ∧
    isWrap (t.reg s.ra).toInt ((s.reg s.ra).toInt + (s.reg r).toInt) ∧
    otherRegsSame s.ra s t ∧ t.ra = s.ra ∧ t.rp = s.rp ∧ memSame s t ∧
    loopCommitted .add (some (r.val : Int)) s.pc s t) ∧
  (∀ (s : State) (f : Field), f.toNat > 7 → exec (.add f) s = .next (haltedOutOfRange .add f s))

/-- R132, `MOV r`. -/
def Obligations.MovCopiesARegisterToTheAccumulator : Prop :=
  (∀ f : Field, decode defaultOpcodeMap (0b0010#4 ++ f) = .ok (.mov f)) ∧
  (∀ (s : State) (f : Field) (r : Fin 8), f.toNat = r.val → ∃ t, exec (.mov f) s = .next t ∧
    t.reg s.ra = s.reg r ∧
    otherRegsSame s.ra s t ∧ t.ra = s.ra ∧ t.rp = s.rp ∧ memSame s t ∧
    loopCommitted .mov (some (r.val : Int)) s.pc s t) ∧
  (∀ (s : State) (f : Field), f.toNat > 7 → exec (.mov f) s = .next (haltedOutOfRange .mov f s))

/-- R133, `NAND r`, bit by bit, and as the integer `-R[Ra] - 1` when the operand is the accumulator. -/
def Obligations.NandIsBitwiseNotAnd : Prop :=
  (∀ f : Field, decode defaultOpcodeMap (0b0011#4 ++ f) = .ok (.nand f)) ∧
  (∀ (s : State) (f : Field) (r : Fin 8), f.toNat = r.val → ∃ t, exec (.nand f) s = .next t ∧
    (∀ k : Fin 16, (t.reg s.ra).getLsbD k.val = !((s.reg s.ra).getLsbD k.val && (s.reg r).getLsbD k.val)) ∧
    (t.reg s.ra).toInt = -((s.reg s.ra) &&& (s.reg r)).toInt - 1 ∧
    (r = s.ra → (t.reg s.ra).toInt = -(s.reg s.ra).toInt - 1) ∧
    otherRegsSame s.ra s t ∧ t.ra = s.ra ∧ t.rp = s.rp ∧ memSame s t ∧
    loopCommitted .nand (some (r.val : Int)) s.pc s t) ∧
  (∀ (s : State) (f : Field), f.toNat > 7 → exec (.nand f) s = .next (haltedOutOfRange .nand f s))

/-- R134, `SUB r`. -/
def Obligations.SubWrapsTheDifferenceIntoTheAccumulator : Prop :=
  (∀ f : Field, decode defaultOpcodeMap (0b1000#4 ++ f) = .ok (.sub f)) ∧
  (∀ (s : State) (f : Field) (r : Fin 8), f.toNat = r.val → ∃ t, exec (.sub f) s = .next t ∧
    isWrap (t.reg s.ra).toInt ((s.reg s.ra).toInt - (s.reg r).toInt) ∧
    otherRegsSame s.ra s t ∧ t.ra = s.ra ∧ t.rp = s.rp ∧ memSame s t ∧
    loopCommitted .sub (some (r.val : Int)) s.pc s t) ∧
  (∀ (s : State) (f : Field), f.toNat > 7 → exec (.sub f) s = .next (haltedOutOfRange .sub f s))

/-- R135, `MLT r`. -/
def Obligations.MltWrapsTheProductIntoTheAccumulator : Prop :=
  (∀ f : Field, decode defaultOpcodeMap (0b1001#4 ++ f) = .ok (.mlt f)) ∧
  (∀ (s : State) (f : Field) (r : Fin 8), f.toNat = r.val → ∃ t, exec (.mlt f) s = .next t ∧
    isWrap (t.reg s.ra).toInt ((s.reg s.ra).toInt * (s.reg r).toInt) ∧
    otherRegsSame s.ra s t ∧ t.ra = s.ra ∧ t.rp = s.rp ∧ memSame s t ∧
    loopCommitted .mlt (some (r.val : Int)) s.pc s t) ∧
  (∀ (s : State) (f : Field), f.toNat > 7 → exec (.mlt f) s = .next (haltedOutOfRange .mlt f s))

/-- R136, `BSLT r`; the last conjunct of the second clause is its corner case of a landing outside the program. -/
def Obligations.BsltBranchesWhenSignedLess : Prop :=
  (∀ f : Field, decode defaultOpcodeMap (0b1010#4 ++ f) = .ok (.bslt f)) ∧
  (∀ (s : State) (f : Field) (r : Fin 8), f.toNat = r.val → ∃ t, exec (.bslt f) s = .next t ∧
    regsSame s t ∧ t.ra = s.ra ∧ t.rp = s.rp ∧ memSame s t ∧
    loopCommitted .bslt (some (r.val : Int)) (if (s.reg s.ra).toInt < (s.reg r).toInt then s.rp else s.pc) s t ∧
    ((s.reg s.ra).toInt < (s.reg r).toInt → t.status = .running → (s.rp + 1 < 0 ∨ s.prog.length ≤ s.rp + 1) →
      step t = .next (haltedEndOfProgram t))) ∧
  (∀ (s : State) (f : Field), f.toNat > 7 → exec (.bslt f) s = .next (haltedOutOfRange .bslt f s))

/-- R137, `SPC r`; the last conjunct of the second clause is where a later branch lands. -/
def Obligations.SpcSetsTheProgramRegister : Prop :=
  (∀ f : Field, decode defaultOpcodeMap (0b1101#4 ++ f) = .ok (.spc f)) ∧
  (∀ (s : State) (f : Field) (r : Fin 8), f.toNat = r.val → ∃ t, exec (.spc f) s = .next t ∧
    t.rp = s.pc + (s.reg r).toInt ∧ regsSame s t ∧ t.ra = s.ra ∧ memSame s t ∧
    loopCommitted .spc (some (r.val : Int)) s.pc s t ∧
    (∀ (g : Field) (u v : State), u.rp = t.rp → exec (.b g) u = .next v → v.pc = s.pc + (s.reg r).toInt + 1)) ∧
  (∀ (s : State) (f : Field), f.toNat > 7 → exec (.spc f) s = .next (haltedOutOfRange .spc f s))

/-! ### The shift class -/

/-- R170, `SLL r`. -/
def Obligations.SllWrapsTheLeftShift : Prop :=
  (∀ f : Field, decode defaultOpcodeMap (0b0100#4 ++ f) = .ok (.sll f)) ∧
  (∀ (s : State) (f : Field) (r : Fin 8), f.toNat = r.val → 0 ≤ (s.reg r).toInt → ∃ t, exec (.sll f) s = .next t ∧
    isWrap (t.reg s.ra).toInt ((s.reg s.ra).toInt * 2 ^ (s.reg r).toInt.toNat) ∧
    (16 ≤ (s.reg r).toInt → t.reg s.ra = 0) ∧
    otherRegsSame s.ra s t ∧ t.ra = s.ra ∧ t.rp = s.rp ∧ memSame s t ∧
    loopCommitted .sll (some (r.val : Int)) s.pc s t) ∧
  (∀ (s : State) (f : Field), f.toNat > 7 → exec (.sll f) s = .next (haltedOutOfRange .sll f s)) ∧
  (∀ (s : State) (f : Field) (r : Fin 8), f.toNat = r.val → (s.reg r).toInt < 0 →
    exec (.sll f) s = .next (haltedOutOfRange .sll f s))

/-- R171, `SRL r`: `q = floor(a / 2^n)` says `q * 2^n <= a < (q + 1) * 2^n`. -/
def Obligations.SrlIsTheArithmeticRightShift : Prop :=
  (∀ f : Field, decode defaultOpcodeMap (0b0101#4 ++ f) = .ok (.srl f)) ∧
  (∀ (s : State) (f : Field) (r : Fin 8), f.toNat = r.val → 0 ≤ (s.reg r).toInt → ∃ t, exec (.srl f) s = .next t ∧
    (t.reg s.ra).toInt * 2 ^ (s.reg r).toInt.toNat ≤ (s.reg s.ra).toInt ∧
    (s.reg s.ra).toInt < ((t.reg s.ra).toInt + 1) * 2 ^ (s.reg r).toInt.toNat ∧
    otherRegsSame s.ra s t ∧ t.ra = s.ra ∧ t.rp = s.rp ∧ memSame s t ∧
    loopCommitted .srl (some (r.val : Int)) s.pc s t) ∧
  (∀ (s : State) (f : Field), f.toNat > 7 → exec (.srl f) s = .next (haltedOutOfRange .srl f s)) ∧
  (∀ (s : State) (f : Field) (r : Fin 8), f.toNat = r.val → (s.reg r).toInt < 0 →
    exec (.srl f) s = .next (haltedOutOfRange .srl f s))

/-! ### The memory-operand class -/

/-- R180, `LOAD r`. -/
def Obligations.LoadCopiesACellToTheAccumulator : Prop :=
  (∀ f : Field, decode defaultOpcodeMap (0b0110#4 ++ f) = .ok (.load f)) ∧
  (∀ (s : State) (f : Field) (r : Fin 8), f.toNat = r.val → 0 ≤ (s.reg r).toInt → (s.reg r).toInt ≤ 127 →
    ∃ t, exec (.load f) s = .next t ∧
    memRead s.mem (s.reg r).toInt = .ok (t.reg s.ra) ∧
    otherRegsSame s.ra s t ∧ t.ra = s.ra ∧ t.rp = s.rp ∧ memSame s t ∧
    loopCommitted .load (some (r.val : Int)) s.pc s t) ∧
  (∀ (s : State) (f : Field), f.toNat > 7 → exec (.load f) s = .next (haltedOutOfRange .load f s)) ∧
  (∀ (s : State) (f : Field) (r : Fin 8), f.toNat = r.val → ((s.reg r).toInt < 0 ∨ 127 < (s.reg r).toInt) →
    exec (.load f) s = .next (haltedOutOfRange .load f s))

/-- R181, `STOR r`. The address stored to is `dataAddress?` of the operand register; every other address reads as before.
The last conjunct of the second clause is that the store is visible later, until the next `STOR`, and never to fetch.
The memory is in its canonical form, an invariant of every step (`StepKeepsTheForm`). -/
def Obligations.StorWritesOneCell : Prop :=
  (∀ f : Field, decode defaultOpcodeMap (0b0111#4 ++ f) = .ok (.stor f)) ∧
  (∀ (s : State) (f : Field) (r : Fin 8), s.mem.wf → f.toNat = r.val → 0 ≤ (s.reg r).toInt → (s.reg r).toInt ≤ 127 →
    ∃ t a, exec (.stor f) s = .next t ∧ dataAddress? (s.reg r) = some a ∧ a = (s.reg r).toInt ∧
    memRead t.mem a = .ok (s.reg s.ra) ∧ (∀ b : Int, b ≠ a → memRead t.mem b = memRead s.mem b) ∧
    regsSame s t ∧ t.ra = s.ra ∧ t.rp = s.rp ∧
    loopCommitted .stor (some (r.val : Int)) s.pc s t ∧
    (∀ (k : Nat) (u : State), run k t = .next u → u.prog = s.prog ∧
      ((∀ (j : Nat) (v : State), j < k → run j t = .next v → ∀ g : Field, nextInstr v ≠ .ok (.stor g)) →
        memRead u.mem a = .ok (s.reg s.ra)))) ∧
  (∀ (s : State) (f : Field), f.toNat > 7 → exec (.stor f) s = .next (haltedOutOfRange .stor f s)) ∧
  (∀ (s : State) (f : Field) (r : Fin 8), f.toNat = r.val → ((s.reg r).toInt < 0 ∨ 127 < (s.reg r).toInt) →
    exec (.stor f) s = .next (haltedOutOfRange .stor f s))

/-! ### The immediate class -/

/-- R190, `MOVI imm`. -/
def Obligations.MoviWritesTheImmediate : Prop :=
  (∀ f : Field, decode defaultOpcodeMap (0b1011#4 ++ f) = .ok (.movi f)) ∧
  (∀ (s : State) (f : Field) (imm : Int), f.toNat ≤ 11 → imm = (if f.toNat ≤ 3 then (f.toNat : Int) else f.toNat - 8) →
    ∃ t, exec (.movi f) s = .next t ∧ (t.reg s.ra).toInt = imm ∧
    otherRegsSame s.ra s t ∧ t.ra = s.ra ∧ t.rp = s.rp ∧ memSame s t ∧ loopCommitted .movi (some imm) s.pc s t) ∧
  (∀ (s : State) (f : Field), f.toNat ≥ 12 → exec (.movi f) s = .next (haltedOutOfRange .movi f s))

/-- R191, `ADDI imm`. -/
def Obligations.AddiWrapsTheSumWithTheImmediate : Prop :=
  (∀ f : Field, decode defaultOpcodeMap (0b1100#4 ++ f) = .ok (.addi f)) ∧
  (∀ (s : State) (f : Field) (imm : Int), f.toNat ≤ 11 → imm = (if f.toNat ≤ 3 then (f.toNat : Int) else f.toNat - 8) →
    ∃ t, exec (.addi f) s = .next t ∧ isWrap (t.reg s.ra).toInt ((s.reg s.ra).toInt + imm) ∧
    otherRegsSame s.ra s t ∧ t.ra = s.ra ∧ t.rp = s.rp ∧ memSame s t ∧ loopCommitted .addi (some imm) s.pc s t) ∧
  (∀ (s : State) (f : Field), f.toNat ≥ 12 → exec (.addi f) s = .next (haltedOutOfRange .addi f s))

/-! ### The control class -/

/-- R200, `B`; the last conjunct is its corner case of a landing outside the program. -/
def Obligations.BranchLandsAfterTheProgramRegister : Prop :=
  (∀ f : Field, decode defaultOpcodeMap (0b1110#4 ++ f) = .ok (.b f)) ∧
  (∀ (s : State) (f : Field), ∃ t, exec (.b f) s = .next t ∧
    regsSame s t ∧ t.ra = s.ra ∧ t.rp = s.rp ∧ memSame s t ∧ loopCommitted .b none s.rp s t ∧
    (t.status = .running → (s.rp + 1 < 0 ∨ s.prog.length ≤ s.rp + 1) → step t = .next (haltedEndOfProgram t)))

/-- R201, `STOP`: nothing but `status` changes, whatever the field and the count. -/
def Obligations.StopHaltsNormally : Prop :=
  (∀ f : Field, decode defaultOpcodeMap (0b1111#4 ++ f) = .ok (.stop f)) ∧
  (∀ (s : State) (f : Field), exec (.stop f) s = .next { s with status := .haltedNormal .stop })

/-! ### The execution loop -/

/-- A running core whose word at `pc` decodes to `i` executes `i`: the step is `exec i` and nothing else (R101, R103). -/
def Obligations.StepRunsTheDecodedInstruction : Prop :=
  ∀ (s : State) (w : InstrWord) (i : Instr), s.status = .running → 0 ≤ s.pc → s.prog[s.pc.toNat]? = some w →
    decode s.opcodeMap w = .ok i → step s = exec i s

/-- R100: a halted core stays as it is, for any number of steps. -/
def Obligations.HaltedStatusesAreAbsorbing : Prop :=
  ∀ (s : State) (k : Nat), s.status ≠ .running → step s = .next s ∧ run k s = .next s

/-- R102: a running core whose `pc` is outside `[0, N)`, negative values included, halts normally and changes nothing else. -/
def Obligations.PcOutsideTheProgramHaltsNormally : Prop :=
  ∀ s : State, s.status = .running → (s.pc < 0 ∨ s.prog.length ≤ s.pc) → step s = .next (haltedEndOfProgram s)

/-- R211: the operand checks, class by class. Where the check fails nothing but `status` changes (R108); where it does not,
the instruction commits, but for `STOP`; and a step halts with `OperandOutOfRange` for no other reason. -/
def Obligations.OperandChecksDecideFailure : Prop :=
  ∀ (i : Instr) (s : State),
    (operandFails i s → exec i s = .next (haltedOutOfRange i.mnemonic i.field s)) ∧
    (¬ operandFails i s → i.mnemonic ≠ .stop → s.status = .running →
      ∃ t, exec i s = .next t ∧ t.count = s.count + 1 ∧
        (t.status = .running ∨ t.status = .haltedError .instructionCountExceeded)) ∧
    (∀ (t : State) (m : Mnemonic) (f : Field), s.status = .running → step s = .next t →
      t.status = .haltedError (.operandOutOfRange m f) →
      ∃ j, nextInstr s = .ok j ∧ operandFails j s ∧ m = j.mnemonic ∧ f = j.field)

/-- R106: the instruction that brings `count` to 1025 does all it does at a lower count, and then the run halts. -/
def Obligations.CeilingHaltsAfterTheCommit : Prop :=
  ∀ (i : Instr) (s t : State) (c : Nat), s.status = .running → s.count = 1024 → c < 1024 →
    exec i { s with count := c } = .next t → t.count = c + 1 →
    t.status = .running ∧
    exec i s = .next { t with count := 1025, status := .haltedError .instructionCountExceeded }

/-- R216: which cause wins when several halting conditions could apply. -/
def Obligations.OneHaltCauseByPriority : Prop :=
  (∀ (s : State) (f : Field), f.toNat > 7 →
    exec (.sll f) s = .next (haltedOutOfRange .sll f s) ∧ exec (.srl f) s = .next (haltedOutOfRange .srl f s) ∧
    exec (.load f) s = .next (haltedOutOfRange .load f s) ∧ exec (.stor f) s = .next (haltedOutOfRange .stor f s)) ∧
  (∀ (s t : State) (i : Instr), s.status = .running → s.count = 1024 → nextInstr s = .ok i → step s = .next t →
    (i.mnemonic = .stop → t.status = .haltedNormal .stop ∧ t.count = 1024) ∧
    (operandFails i s → t.status = .haltedError (.operandOutOfRange i.mnemonic i.field) ∧ t.count = 1024) ∧
    (i.mnemonic ≠ .stop → ¬ operandFails i s →
      t.status = .haltedError .instructionCountExceeded ∧ t.count = 1025))

/-- R112: every run halts within 1025 steps; each step from `Running` halts or adds one to `count`; the run ends with
`count <= 1025`, and with 1025 exactly when the ceiling halted it. -/
def Obligations.EveryRunHaltsWithin1025Steps : Prop :=
  (∀ s t : State, s.status = .running → step s = .next t → (t.halted ∨ t.count = s.count + 1) ∧
    (1025 ≤ t.count → t.halted)) ∧
  (∀ s : State, s.status = .running → s.count = 0 →
    ∃ (k : Nat) (t : State), k ≤ 1025 ∧ run k s = .next t ∧ t.halted ∧ t.count ≤ 1025 ∧
      (t.count = 1025 ↔ t.status = .haltedError .instructionCountExceeded))

/-- R110: a step emits exactly one record when it commits and `debug` is on, and none otherwise. The record is that of
R225: the instruction executed and the state after the step. -/
def Obligations.TraceRecordsCommittedStepsOnly : Prop :=
  ∀ s t : State, step s = .next t →
    ((s.debug = true ∧ t.count = s.count + 1) → ∃ i, nextInstr s = .ok i ∧
      t.trace = s.trace ++ [⟨i.mnemonic,
        if i.mnemonic = .b then none
        else if i.mnemonic = .movi ∨ i.mnemonic = .addi then immediate? i.field else some (i.field.toNat : Int),
        t.regs, t.ra, t.rp, t.pc⟩]) ∧
    ((s.debug = false ∨ t.count ≠ s.count + 1) → t.trace = s.trace)

/-- R224's last sentence: tracing has no effect on the execution, over any number of steps. -/
def Obligations.TracingHasNoEffectOnExecution : Prop :=
  ∀ (k : Nat) (s t : State) (d : Bool) (tr : List TraceRecord), run k s = .next t →
    ∃ u, run k { s with debug := d, trace := tr } = .next u ∧ { u with debug := t.debug, trace := t.trace } = t

/-- R246: a taken `BSLT` or a `B` lands at `Rp + 1`; with `SPC r` at address `p` and `R[r] = L - 1 - p`, the branch that follows, `B` or a taken `BSLT`, lands at `L`. -/
def Obligations.StagedBranchLandsAtTheChosenAddress : Prop :=
  (∀ (s : State) (g : Field), ∃ t, exec (.b g) s = .next t ∧ t.pc = s.rp + 1) ∧
  (∀ (s : State) (g : Field) (q : Fin 8), g.toNat = q.val → (s.reg s.ra).toInt < (s.reg q).toInt →
    ∃ t, exec (.bslt g) s = .next t ∧ t.pc = s.rp + 1) ∧
  (∀ (s : State) (f g : Field) (r : Fin 8) (w1 w2 : InstrWord) (j : Instr) (target : Int),
    s.status = .running → s.count + 2 ≤ 1024 → 0 ≤ s.pc →
    s.prog[s.pc.toNat]? = some w1 → s.prog[s.pc.toNat + 1]? = some w2 →
    decode s.opcodeMap w1 = .ok (.spc f) → f.toNat = r.val → decode s.opcodeMap w2 = .ok j →
    (j = .b g ∨ ∃ q : Fin 8, j = .bslt g ∧ g.toNat = q.val ∧ (s.reg s.ra).toInt < (s.reg q).toInt) →
    (s.reg r).toInt = target - 1 - s.pc →
    ∃ t, run 2 s = .next t ∧ t.pc = target ∧ t.rp = target - 1 ∧ t.status = .running)

/-! ### Who writes what -/

/-- R21: a handler writes at most one general register, always `R[Ra]`, and only the ten listed instructions do. -/
def Obligations.OnlyTheAccumulatorIsWritten : Prop :=
  ∀ (i : Instr) (s t : State), exec i s = .next t →
    otherRegsSame s.ra s t ∧
    (t.reg s.ra ≠ s.reg s.ra → i.mnemonic ∈ ([.add, .mov, .nand, .sub, .mlt, .sll, .srl, .load, .movi, .addi] : List Mnemonic))

/-- R22 and R23: only `SAR` writes `Ra` and only `SPC` writes `Rp`. -/
def Obligations.OnlySarWritesRaAndOnlySpcWritesRp : Prop :=
  ∀ (i : Instr) (s t : State), exec i s = .next t →
    (t.ra ≠ s.ra → i.mnemonic = .sar) ∧ (t.rp ≠ s.rp → i.mnemonic = .spc)

/-- R59: between two stores the data memory keeps every cell: over any steps that execute no `STOR`, every address reads
as before, so a read returns the value of the last store. -/
def Obligations.MemoryKeepsItsCellsBetweenStores : Prop :=
  ∀ (k : Nat) (s t : State), run k s = .next t →
    (∀ (j : Nat) (u : State), j < k → run j s = .next u → ∀ f : Field, nextInstr u ≠ .ok (.stor f)) →
    memSame s t

/-- R35: the program words, `N`, `debug` and the opcode map stay as they are over any number of steps. That the level
of the loader's report input stays too is the model's choice, which holds it in the state (notes/assumptions/21.md). -/
def Obligations.NoStepWritesTheConfiguration : Prop :=
  ∀ (k : Nat) (s t : State), run k s = .next t → sameConfig s t

/-- The class checks come before every access, so no call of a memory primitive misses its cell (R51): no instruction and
no step ends in a fault or a refusal, in any state. -/
def Obligations.NoStepFaultsOrIsRefused : Prop :=
  (∀ (i : Instr) (s : State), ∃ t, exec i s = .next t) ∧ (∀ s : State, ∃ t, step s = .next t)

/-! ### Invariants -/

/-- Every step keeps the data memory canonical, the opcode map legal and the program within `2^24` words. -/
def Obligations.StepKeepsTheForm : Prop :=
  ∀ s t : State, s.formOk → step s = .next t → t.formOk

/-- Every step keeps the rule on `count`: at most 1025, and 1025 exactly after a halt by the ceiling (R27, R106, R112). -/
def Obligations.StepKeepsTheCountRule : Prop :=
  ∀ s t : State, s.countOk → step s = .next t → t.countOk

/-- Every step keeps `pc` and `Rp` within 32-bit signed registers when the program has at most `2^24` words (R24, D6). -/
def Obligations.StepKeepsProgramCountersIn32Bits : Prop :=
  ∀ s t : State, s.prog.length ≤ 2 ^ 24 → s.fits32 → step s = .next t → t.fits32

/-- R212: with a legal opcode map no step raises `DecodeFailure`. -/
def Obligations.DecodeFailureIsNeverRaised : Prop :=
  ∀ s t : State, s.opcodeMap.legal → s.noDecodeFailure → step s = .next t → t.noDecodeFailure

/-- The state after reset meets the invariants. -/
def Obligations.ResetMeetsTheInvariants : Prop :=
  State.reset.formOk ∧ State.reset.countOk ∧ State.reset.fits32 ∧ State.reset.noDecodeFailure

/-! ### Reset and the host interface -/

/-- R36: `Running`, `pc = 0` and `count = 0` after reset, in `State.reset` and in every launch. -/
def Obligations.ResetLeavesTheInitialState : Prop :=
  (State.reset.status = .running ∧ State.reset.pc = 0 ∧ State.reset.count = 0) ∧
  (∀ (l : Launch) (t : State), launch l = .next t → t.status = .running ∧ t.pc = 0 ∧ t.count = 0)

/-- R37: a launch loads an image of exactly 128 values cell by cell; an image of another length leaves 128 zeros, raises
the loader's flag and does not stop the run. Every value of the image is in range, as R244 asks. `Ra`, `Rp` and the registers
take the launch's reset values (R38). -/
def Obligations.LaunchLoadsTheImageOrZeros : Prop :=
  ∀ l : Launch, l.program.length ≤ 2 ^ 24 → l.opcodeMap.legal → (∀ v ∈ l.image, -32768 ≤ v ∧ v ≤ 32767) →
    ∃ t, launch l = .next t ∧ t.status = .running ∧ t.prog = l.program ∧
      t.regs = l.resetValues.r ∧ t.ra = l.resetValues.ra ∧ t.rp = l.resetValues.rp ∧
      (l.image.length = 128 → t.memImageMalformed = false ∧
        ∀ a : Nat, a < 128 → ∃ w, memRead t.mem (a : Int) = .ok w ∧ l.image[a]? = some w.toInt) ∧
      (l.image.length ≠ 128 → t.memImageMalformed = true ∧ ∀ a : Nat, a < 128 → memRead t.mem (a : Int) = .ok 0)

/-- R244: an image of any length with a value outside 16 bits refuses the launch, as one operation and edge by edge from any
state; where the program and the opcode map could be taken, the refusal names such a value. -/
def Obligations.LaunchRefusesValuesOutsideTheWidth : Prop :=
  (∀ l : Launch, (∃ v ∈ l.image, v < -32768 ∨ 32767 < v) →
    ∃ e, launch l = .refused e ∧ ∀ s : State, boot l s = .refused e) ∧
  (∀ l : Launch, l.program.length ≤ 2 ^ 24 → l.opcodeMap.legal → (∃ v ∈ l.image, v < -32768 ∨ 32767 < v) →
    ∃ v ∈ l.image, (v < -32768 ∨ 32767 < v) ∧ launch l = .refused (.imageValueOutOfRange v))

/-- R240: a reset edge takes the core, from any state, to the reset state and samples the configuration and the host port;
without reset a halted core stays as it is, but for the loader's report, which every edge drives. That the data memory keeps
the cells the host does not write is the model's reading (notes/assumptions/19.md), and so is the level of the loader's
report as a field of the state (notes/assumptions/21.md). -/
def Obligations.ResetStartsANewRun : Prop :=
  (∀ (rv : ResetValues) (inp : Inputs) (s : State), inp.rst = true → inp.program.length ≤ 2 ^ 24 → inp.opcodeMap.legal →
    s.mem.wf → ∃ t, clockEdge rv inp s = .next t ∧ t.status = .running ∧ t.pc = 0 ∧ t.count = 0 ∧
      t.regs = rv.r ∧ t.ra = rv.ra ∧ t.rp = rv.rp ∧
      t.prog = inp.program ∧ t.debug = inp.debug ∧ t.opcodeMap = inp.opcodeMap ∧
      t.memImageMalformed = inp.memImageMalformed ∧
      (inp.hmemWe = true → memRead t.mem (inp.hmemAddr.toNat : Int) = .ok inp.hmemWdata ∧
        ∀ b : Int, b ≠ (inp.hmemAddr.toNat : Int) → memRead t.mem b = memRead s.mem b) ∧
      (inp.hmemWe = false → memSame s t)) ∧
  (∀ (rv : ResetValues) (inp : Inputs) (s t : State), inp.rst = false → s.halted → clockEdge rv inp s = .next t →
    t = driveLoaderReport inp.memImageMalformed s)

/-- The boot sequence of R242 edge by edge, 128 writes through the host port under reset, does what the launch does, from any
state whose memory is canonical: it ends in the same state, or is refused for the same reason. It rests on the model's
readings that the cells stay between reset edges (notes/assumptions/19.md) and that the last edge's level of the loader's
report stands (notes/assumptions/21.md), and on its order of the refusals (notes/assumptions/13.md). -/
def Obligations.BootThroughTheHostPortIsTheLaunch : Prop :=
  ∀ (l : Launch) (s : State), s.mem.wf → boot l s = launch l

/-- R43: the host port is closed while the core runs, reads every cell when it has halted, and writes only during reset. -/
def Obligations.HostPortOpensOnlyWhenHaltedOrInReset : Prop :=
  (∀ (s : State) (a : BitVec 7), s.status = .running → hostRead s a = .error .hostAccessWhileRunning) ∧
  (∀ (s : State) (a : BitVec 7), s.halted → ∃ w, hostRead s a = .ok w ∧ memRead s.mem (a.toNat : Int) = .ok w) ∧
  (∀ (rv : ResetValues) (inp : Inputs) (s : State), inp.rst = false → inp.hmemWe = true →
    ∃ e, clockEdge rv inp s = .refused e)

/-- R45: the status code, the recorded mnemonic and field of a failed operand (0 for every other status), and the
observation outputs. -/
def Obligations.OutputsShowTheState : Prop :=
  (∀ s : State, (outputs s).r = s.regs ∧ (outputs s).ra = s.ra ∧ (outputs s).rp = s.rp ∧ (outputs s).pc = s.pc ∧
    (outputs s).count = s.count) ∧
  (∀ s : State, s.status = .running → (outputs s).statusCode = 0) ∧
  (∀ s : State, s.status = .haltedNormal .stop → (outputs s).statusCode = 1) ∧
  (∀ s : State, s.status = .haltedNormal .endOfProgram → (outputs s).statusCode = 2) ∧
  (∀ (s : State) (op : Field), s.status = .haltedError (.decodeFailure op) → (outputs s).statusCode = 3) ∧
  (∀ s : State, s.status = .haltedError .instructionCountExceeded → (outputs s).statusCode = 5) ∧
  (∀ (s : State) (m : Mnemonic) (f : Field), s.status = .haltedError (.operandOutOfRange m f) →
    (outputs s).statusCode = 4 ∧ (outputs s).errOperand = f ∧
    (s.opcodeMap.legal → s.opcodeMap[(outputs s).errMnemonic.toNat]? = some m)) ∧
  (∀ s : State, (∀ m f, s.status ≠ .haltedError (.operandOutOfRange m f)) →
    (outputs s).errMnemonic = 0 ∧ (outputs s).errOperand = 0)

/-- R44: the loader raises its report exactly when the image does not have 128 values; the output shows the input's level as
driven and after every clock edge, reset or step; and the level changes nothing else: no output, no host read, no edge and no
run. That the level stands in the state between edges is the model's form of the copy (notes/assumptions/21.md). -/
def Obligations.LoaderReportIsCopiedWithoutOtherEffect : Prop :=
  (∀ (l : Launch) (t : State), launch l = .next t → ((outputs t).memImageMalformed = true ↔ l.image.length ≠ 128)) ∧
  (∀ (b : Bool) (s : State), outputs (driveLoaderReport b s) = { outputs s with memImageMalformed := b }) ∧
  (∀ (b : Bool) (s : State) (a : BitVec 7), hostRead (driveLoaderReport b s) a = hostRead s a) ∧
  (∀ (rv : ResetValues) (inp : Inputs) (s t : State), clockEdge rv inp s = .next t →
    (outputs t).memImageMalformed = inp.memImageMalformed) ∧
  (∀ (rv : ResetValues) (inp : Inputs) (s t : State) (b : Bool), clockEdge rv inp s = .next t →
    clockEdge rv { inp with memImageMalformed := b } s = .next (driveLoaderReport b t)) ∧
  (∀ (k : Nat) (s t : State) (b : Bool), run k s = .next t →
    run k (driveLoaderReport b s) = .next (driveLoaderReport b t))
end

