-- ==== Sys2Proof/Laws/Memory.lean ====
section
/-! SUPPORT. The data memory: every operation keeps the canonical form, a read after a write, equal reads give equal memories. -/

namespace Sys2Proof.Machine

theorem Memory.wf_nil : Memory.wf [] := ⟨List.Pairwise.nil, fun _ h => absurd h List.not_mem_nil⟩

theorem Memory.wf_tail {p : Nat × Word} {m : Memory} (h : Memory.wf (p :: m)) : Memory.wf m :=
  ⟨h.1.of_cons, fun q hq => h.2 q (List.mem_cons_of_mem _ hq)⟩

theorem Memory.wf_cons {a : Nat} {v : Word} {m : Memory} (hm : Memory.wf m) (ha : a < 128) (hv : v ≠ 0#16)
    (hlt : ∀ p ∈ m, a < p.1) : Memory.wf ((a, v) :: m) := by
  refine ⟨List.pairwise_cons.2 ⟨hlt, hm.1⟩, ?_⟩
  intro p hp
  rcases List.mem_cons.1 hp with rfl | hp
  · exact ⟨ha, hv⟩
  · exact hm.2 p hp

theorem Memory.head_lt {a : Nat} {v : Word} {m : Memory} (h : Memory.wf ((a, v) :: m)) :
    ∀ p ∈ m, a < p.1 := fun _ hp => List.rel_of_pairwise_cons h.1 hp

/-- An address that no pair of the list has reads as 0. -/
theorem Memory.read_eq_zero {m : Memory} {a : Nat} (h : ∀ p ∈ m, p.1 ≠ a) : m.read a = 0#16 := by
  induction m with
  | nil => rfl
  | cons p m ih =>
    have h1 : a ≠ p.1 := fun e => h p List.mem_cons_self e.symm
    simp only [Memory.read, if_neg h1]
    exact ih fun q hq => h q (List.mem_cons_of_mem _ hq)

/-- The addresses of a written memory are those of the memory and the address written. -/
theorem Memory.mem_write {m : Memory} {a : Nat} {v : Word} {p : Nat × Word} (h : p ∈ m.write a v) :
    p = (a, v) ∨ p ∈ m := by
  induction m with
  | nil =>
    simp only [Memory.write] at h
    split at h
    · exact absurd h List.not_mem_nil
    · exact .inl (List.mem_singleton.1 h)
  | cons q m ih =>
    obtain ⟨b, u⟩ := q
    simp only [Memory.write] at h
    split at h
    · split at h
      · exact .inr h
      · exact List.mem_cons.1 h
    · split at h
      · split at h
        · exact .inr (List.mem_cons_of_mem _ h)
        · exact (List.mem_cons.1 h).imp id (List.mem_cons_of_mem _)
      · rcases List.mem_cons.1 h with rfl | h
        · exact .inr List.mem_cons_self
        · exact (ih h).imp id (List.mem_cons_of_mem _)

/-- A write to an existing cell keeps the canonical form. -/
theorem Memory.write_wf {m : Memory} {a : Nat} (v : Word) (h : m.wf) (ha : a < 128) : (m.write a v).wf := by
  induction m with
  | nil =>
    by_cases hv : v = 0#16
    · simp only [Memory.write, if_pos hv]
      exact Memory.wf_nil
    · simp only [Memory.write, if_neg hv]
      exact Memory.wf_cons Memory.wf_nil ha hv fun _ h => absurd h List.not_mem_nil
  | cons q m ih =>
    obtain ⟨b, u⟩ := q
    have hlt := Memory.head_lt h
    have hb := h.2 _ List.mem_cons_self
    simp only [Memory.write]
    split
    · rename_i hab
      split
      · exact h
      · rename_i hv
        refine Memory.wf_cons h ha hv fun p hp => ?_
        rcases List.mem_cons.1 hp with rfl | hp
        · exact hab
        · exact hab.trans (hlt p hp)
    · split
      · rename_i hab
        subst hab
        split
        · exact Memory.wf_tail h
        · rename_i hv
          exact Memory.wf_cons (Memory.wf_tail h) ha hv hlt
      · refine Memory.wf_cons (ih (Memory.wf_tail h)) hb.1 hb.2 fun p hp => ?_
        rcases Memory.mem_write hp with rfl | hp
        · simp only; omega
        · exact hlt p hp

/-- A read after a write: the value at the address written, the old value everywhere else. -/
theorem Memory.read_write {m : Memory} (h : m.wf) (a : Nat) (v : Word) (b : Nat) :
    (m.write a v).read b = if b = a then v else m.read b := by
  induction m with
  | nil => by_cases hv : v = 0#16 <;> simp [Memory.write, Memory.read, hv]
  | cons q m ih =>
    obtain ⟨c, u⟩ := q
    have hlt := Memory.head_lt h
    have htail : ∀ d, d ≤ c → Memory.read m d = 0#16 := fun d hd =>
      Memory.read_eq_zero fun p hp e => by have := hlt p hp; omega
    simp only [Memory.write]
    split
    · rename_i hac
      split
      · rename_i hv
        by_cases hb : b = a
        · subst hb; simp [Memory.read, Nat.ne_of_lt hac, htail b hac.le, hv]
        · simp [hb]
      · simp [Memory.read]
    · split
      · rename_i hac
        subst hac
        split
        · rename_i hv
          by_cases hb : b = a
          · subst hb; simp [htail b (Nat.le_refl _), hv]
          · simp [Memory.read, hb]
        · by_cases hb : b = a <;> simp [Memory.read, hb]
      · simp only [Memory.read, ih (Memory.wf_tail h)]
        by_cases hb : b = c
        · have : ¬ c = a := by omega
          simp [hb, this]
        · simp [hb]

/-- A canonical memory reads as 0 above its cells. -/
theorem Memory.read_of_ge {m : Memory} (h : m.wf) {a : Nat} (ha : 128 ≤ a) : m.read a = 0#16 :=
  Memory.read_eq_zero fun p hp e => by
    have := (h.2 p hp).1
    simp only [Config.memSize] at this
    omega

/-- Two canonical memories that read alike are equal: equal memories are equal data. -/
theorem Memory.ext_read {m n : Memory} (hm : m.wf) (hn : n.wf) (h : ∀ a, m.read a = n.read a) : m = n := by
  induction m generalizing n with
  | nil =>
    cases n with
    | nil => rfl
    | cons q n => exact absurd (by simpa [Memory.read] using (h q.1).symm) (hn.2 q List.mem_cons_self).2
  | cons p m ih =>
    obtain ⟨a, v⟩ := p
    have hv := (hm.2 _ List.mem_cons_self).2
    have hltm := Memory.head_lt hm
    cases n with
    | nil => exact absurd (by simpa [Memory.read] using h a) hv
    | cons q n =>
      obtain ⟨b, u⟩ := q
      have hu := (hn.2 _ List.mem_cons_self).2
      have hltn := Memory.head_lt hn
      have hab : a = b := by
        by_contra hne
        rcases Nat.lt_or_gt_of_ne hne with hlt | hlt
        · have h1 := h a
          rw [Memory.read_eq_zero (m := (b, u) :: n) (a := a) (by
            intro p hp e
            rcases List.mem_cons.1 hp with rfl | hp
            · simp only at e; omega
            · have := hltn p hp; omega)] at h1
          exact hv (by simpa [Memory.read] using h1)
        · have h1 := h b
          rw [Memory.read_eq_zero (m := (a, v) :: m) (a := b) (by
            intro p hp e
            rcases List.mem_cons.1 hp with rfl | hp
            · simp only at e; omega
            · have := hltm p hp; omega)] at h1
          exact hu (by simpa [Memory.read] using h1.symm)
      subst hab
      have hvu : v = u := by simpa [Memory.read] using h a
      subst hvu
      congr 1
      refine ih (Memory.wf_tail hm) (Memory.wf_tail hn) fun c => ?_
      by_cases hc : c = a
      · subst hc
        rw [Memory.read_eq_zero fun p hp e => by have := hltm p hp; omega,
          Memory.read_eq_zero fun p hp e => by have := hltn p hp; omega]
      · simpa [Memory.read, hc] using h c

/-- Every pair of a memory made from words lies within the words' addresses and is not 0. -/
theorem Memory.mem_ofWords {ws : List Word} {a : Nat} {p : Nat × Word} (h : p ∈ Memory.ofWords a ws) :
    a ≤ p.1 ∧ p.1 < a + ws.length ∧ p.2 ≠ 0#16 := by
  induction ws generalizing a with
  | nil => exact absurd h List.not_mem_nil
  | cons w ws ih =>
    have step : p ∈ Memory.ofWords (a + 1) ws → a ≤ p.1 ∧ p.1 < a + (w :: ws).length ∧ p.2 ≠ 0#16 := fun h => by
      have := ih h
      simp only [List.length_cons]
      exact ⟨by omega, by omega, this.2.2⟩
    simp only [Memory.ofWords] at h
    split at h
    · exact step h
    · rename_i hw
      rcases List.mem_cons.1 h with rfl | h
      · exact ⟨by simp, by simp, hw⟩
      · exact step h

/-- A memory made from words that fit is canonical. -/
theorem Memory.ofWords_wf {ws : List Word} {a : Nat} (h : a + ws.length ≤ 128) : (Memory.ofWords a ws).wf := by
  induction ws generalizing a with
  | nil => exact Memory.wf_nil
  | cons w ws ih =>
    have hrest : (Memory.ofWords (a + 1) ws).wf := ih (by simp only [List.length_cons] at h; omega)
    simp only [Memory.ofWords]
    split
    · exact hrest
    · rename_i hw
      exact Memory.wf_cons hrest (by simp only [List.length_cons] at h; omega) hw
        fun p hp => by have := (Memory.mem_ofWords hp).1; omega

/-- A memory made from words reads as the words, and as 0 elsewhere. -/
theorem Memory.read_ofWords (ws : List Word) (a b : Nat) :
    (Memory.ofWords a ws).read b = if a ≤ b then ws.getD (b - a) 0#16 else 0#16 := by
  induction ws generalizing a with
  | nil => simp [Memory.ofWords, Memory.read]
  | cons w ws ih =>
    have hrest : b = a → Memory.read (Memory.ofWords (a + 1) ws) b = 0#16 := fun e =>
      Memory.read_eq_zero fun p hp e' => by have := (Memory.mem_ofWords hp).1; omega
    simp only [Memory.ofWords]
    by_cases hb : b = a
    · subst hb
      split
      · rename_i hw; simp [hrest rfl, hw]
      · simp [Memory.read]
    · have key : Memory.read (Memory.ofWords (a + 1) ws) b = if a ≤ b then (w :: ws).getD (b - a) 0#16 else 0#16 := by
        rw [ih]
        by_cases hab : a ≤ b
        · obtain ⟨k, rfl⟩ := Nat.exists_eq_add_of_lt (Nat.lt_of_le_of_ne hab (Ne.symm hb))
          have e1 : a + k + 1 - (a + 1) = k := by omega
          have e2 : a + k + 1 - a = k + 1 := by omega
          have e3 : a + 1 ≤ a + k + 1 := by omega
          simp [e1, e2, e3, hab]
        · have : ¬ a + 1 ≤ b := by omega
          simp [hab, this]
      split
      · exact key
      · simp only [Memory.read, if_neg hb]; exact key

/-- `MemRead` at an address that exists. -/
theorem memRead_of_range {m : Memory} {a : Int} (h0 : 0 ≤ a) (h1 : a ≤ 127) : memRead m a = .ok (m.read a.toNat) := by
  simp [memRead, h0, h1]

/-- `MemWrite` at an address that exists. -/
theorem memWrite_of_range {m : Memory} {a : Int} (v : Word) (h0 : 0 ≤ a) (h1 : a ≤ 127) :
    memWrite m a v = .ok (m.write a.toNat v) := by
  simp [memWrite, h0, h1]

/-- What a write through `MemWrite` leaves: canonical memory, the value at its address, the rest as before. -/
theorem memWrite_spec {m m' : Memory} {a : Int} {v : Word} (h : memWrite m a v = .ok m') (hm : m.wf) :
    m'.wf ∧ memRead m' a = .ok v ∧ ∀ b : Int, b ≠ a → memRead m' b = memRead m b := by
  by_cases hr : 0 ≤ a ∧ a ≤ 127
  · rw [memWrite_of_range v hr.1 hr.2] at h
    cases h
    refine ⟨Memory.write_wf v hm (by omega), ?_, fun b hb => ?_⟩
    · simp [memRead_of_range hr.1 hr.2, Memory.read_write hm]
    · by_cases hb' : 0 ≤ b ∧ b ≤ 127
      · rw [memRead_of_range hb'.1 hb'.2, memRead_of_range hb'.1 hb'.2, Memory.read_write hm, if_neg (by omega)]
      · simp [memRead, hb']
  · rw [memWrite, if_neg hr] at h
    cases h

/-- Memory at reset is canonical. -/
theorem State.reset_mem_wf : State.reset.mem.wf := Memory.wf_nil

end Sys2Proof.Machine
end

