-- ==== Sys2Proof/Laws/State.lean ====
section
/-! SUPPORT. One lemma per field per state update, each true by rfl. -/

namespace Sys2Proof.Machine

@[simp] theorem State.setAcc_regs (s : State) (v : Word) : (s.setAcc v).regs = s.regs.set s.ra v := rfl
@[simp] theorem State.setAcc_ra (s : State) (v : Word) : (s.setAcc v).ra = s.ra := rfl
@[simp] theorem State.setAcc_rp (s : State) (v : Word) : (s.setAcc v).rp = s.rp := rfl
@[simp] theorem State.setAcc_pc (s : State) (v : Word) : (s.setAcc v).pc = s.pc := rfl
@[simp] theorem State.setAcc_count (s : State) (v : Word) : (s.setAcc v).count = s.count := rfl
@[simp] theorem State.setAcc_status (s : State) (v : Word) : (s.setAcc v).status = s.status := rfl
@[simp] theorem State.setAcc_mem (s : State) (v : Word) : (s.setAcc v).mem = s.mem := rfl
@[simp] theorem State.setAcc_prog (s : State) (v : Word) : (s.setAcc v).prog = s.prog := rfl
@[simp] theorem State.setAcc_debug (s : State) (v : Word) : (s.setAcc v).debug = s.debug := rfl
@[simp] theorem State.setAcc_opcodeMap (s : State) (v : Word) : (s.setAcc v).opcodeMap = s.opcodeMap := rfl
@[simp] theorem State.setAcc_memImageMalformed (s : State) (v : Word) : (s.setAcc v).memImageMalformed = s.memImageMalformed := rfl
@[simp] theorem State.setAcc_trace (s : State) (v : Word) : (s.setAcc v).trace = s.trace := rfl

@[simp] theorem State.setRa_regs (s : State) (r : Fin 8) : (s.setRa r).regs = s.regs := rfl
@[simp] theorem State.setRa_ra (s : State) (r : Fin 8) : (s.setRa r).ra = r := rfl
@[simp] theorem State.setRa_rp (s : State) (r : Fin 8) : (s.setRa r).rp = s.rp := rfl
@[simp] theorem State.setRa_pc (s : State) (r : Fin 8) : (s.setRa r).pc = s.pc := rfl
@[simp] theorem State.setRa_count (s : State) (r : Fin 8) : (s.setRa r).count = s.count := rfl
@[simp] theorem State.setRa_status (s : State) (r : Fin 8) : (s.setRa r).status = s.status := rfl
@[simp] theorem State.setRa_mem (s : State) (r : Fin 8) : (s.setRa r).mem = s.mem := rfl
@[simp] theorem State.setRa_prog (s : State) (r : Fin 8) : (s.setRa r).prog = s.prog := rfl
@[simp] theorem State.setRa_debug (s : State) (r : Fin 8) : (s.setRa r).debug = s.debug := rfl
@[simp] theorem State.setRa_opcodeMap (s : State) (r : Fin 8) : (s.setRa r).opcodeMap = s.opcodeMap := rfl
@[simp] theorem State.setRa_memImageMalformed (s : State) (r : Fin 8) : (s.setRa r).memImageMalformed = s.memImageMalformed := rfl
@[simp] theorem State.setRa_trace (s : State) (r : Fin 8) : (s.setRa r).trace = s.trace := rfl

@[simp] theorem State.setRp_regs (s : State) (v : Int) : (s.setRp v).regs = s.regs := rfl
@[simp] theorem State.setRp_ra (s : State) (v : Int) : (s.setRp v).ra = s.ra := rfl
@[simp] theorem State.setRp_rp (s : State) (v : Int) : (s.setRp v).rp = v := rfl
@[simp] theorem State.setRp_pc (s : State) (v : Int) : (s.setRp v).pc = s.pc := rfl
@[simp] theorem State.setRp_count (s : State) (v : Int) : (s.setRp v).count = s.count := rfl
@[simp] theorem State.setRp_status (s : State) (v : Int) : (s.setRp v).status = s.status := rfl
@[simp] theorem State.setRp_mem (s : State) (v : Int) : (s.setRp v).mem = s.mem := rfl
@[simp] theorem State.setRp_prog (s : State) (v : Int) : (s.setRp v).prog = s.prog := rfl
@[simp] theorem State.setRp_debug (s : State) (v : Int) : (s.setRp v).debug = s.debug := rfl
@[simp] theorem State.setRp_opcodeMap (s : State) (v : Int) : (s.setRp v).opcodeMap = s.opcodeMap := rfl
@[simp] theorem State.setRp_memImageMalformed (s : State) (v : Int) : (s.setRp v).memImageMalformed = s.memImageMalformed := rfl
@[simp] theorem State.setRp_trace (s : State) (v : Int) : (s.setRp v).trace = s.trace := rfl

@[simp] theorem State.setMem_regs (s : State) (m : Memory) : (s.setMem m).regs = s.regs := rfl
@[simp] theorem State.setMem_ra (s : State) (m : Memory) : (s.setMem m).ra = s.ra := rfl
@[simp] theorem State.setMem_rp (s : State) (m : Memory) : (s.setMem m).rp = s.rp := rfl
@[simp] theorem State.setMem_pc (s : State) (m : Memory) : (s.setMem m).pc = s.pc := rfl
@[simp] theorem State.setMem_count (s : State) (m : Memory) : (s.setMem m).count = s.count := rfl
@[simp] theorem State.setMem_status (s : State) (m : Memory) : (s.setMem m).status = s.status := rfl
@[simp] theorem State.setMem_mem (s : State) (m : Memory) : (s.setMem m).mem = m := rfl
@[simp] theorem State.setMem_prog (s : State) (m : Memory) : (s.setMem m).prog = s.prog := rfl
@[simp] theorem State.setMem_debug (s : State) (m : Memory) : (s.setMem m).debug = s.debug := rfl
@[simp] theorem State.setMem_opcodeMap (s : State) (m : Memory) : (s.setMem m).opcodeMap = s.opcodeMap := rfl
@[simp] theorem State.setMem_memImageMalformed (s : State) (m : Memory) : (s.setMem m).memImageMalformed = s.memImageMalformed := rfl
@[simp] theorem State.setMem_trace (s : State) (m : Memory) : (s.setMem m).trace = s.trace := rfl

@[simp] theorem raise_regs (c : ErrorCause) (s : State) : (raise c s).regs = s.regs := rfl
@[simp] theorem raise_ra (c : ErrorCause) (s : State) : (raise c s).ra = s.ra := rfl
@[simp] theorem raise_rp (c : ErrorCause) (s : State) : (raise c s).rp = s.rp := rfl
@[simp] theorem raise_pc (c : ErrorCause) (s : State) : (raise c s).pc = s.pc := rfl
@[simp] theorem raise_count (c : ErrorCause) (s : State) : (raise c s).count = s.count := rfl
@[simp] theorem raise_status (c : ErrorCause) (s : State) : (raise c s).status = .haltedError c := rfl
@[simp] theorem raise_mem (c : ErrorCause) (s : State) : (raise c s).mem = s.mem := rfl
@[simp] theorem raise_prog (c : ErrorCause) (s : State) : (raise c s).prog = s.prog := rfl
@[simp] theorem raise_debug (c : ErrorCause) (s : State) : (raise c s).debug = s.debug := rfl
@[simp] theorem raise_opcodeMap (c : ErrorCause) (s : State) : (raise c s).opcodeMap = s.opcodeMap := rfl
@[simp] theorem raise_memImageMalformed (c : ErrorCause) (s : State) : (raise c s).memImageMalformed = s.memImageMalformed := rfl
@[simp] theorem raise_trace (c : ErrorCause) (s : State) : (raise c s).trace = s.trace := rfl

@[simp] theorem haltNormally_regs (c : NormalCause) (s : State) : (haltNormally c s).regs = s.regs := rfl
@[simp] theorem haltNormally_ra (c : NormalCause) (s : State) : (haltNormally c s).ra = s.ra := rfl
@[simp] theorem haltNormally_rp (c : NormalCause) (s : State) : (haltNormally c s).rp = s.rp := rfl
@[simp] theorem haltNormally_pc (c : NormalCause) (s : State) : (haltNormally c s).pc = s.pc := rfl
@[simp] theorem haltNormally_count (c : NormalCause) (s : State) : (haltNormally c s).count = s.count := rfl
@[simp] theorem haltNormally_status (c : NormalCause) (s : State) : (haltNormally c s).status = .haltedNormal c := rfl
@[simp] theorem haltNormally_mem (c : NormalCause) (s : State) : (haltNormally c s).mem = s.mem := rfl
@[simp] theorem haltNormally_prog (c : NormalCause) (s : State) : (haltNormally c s).prog = s.prog := rfl
@[simp] theorem haltNormally_debug (c : NormalCause) (s : State) : (haltNormally c s).debug = s.debug := rfl
@[simp] theorem haltNormally_opcodeMap (c : NormalCause) (s : State) : (haltNormally c s).opcodeMap = s.opcodeMap := rfl
@[simp] theorem haltNormally_memImageMalformed (c : NormalCause) (s : State) : (haltNormally c s).memImageMalformed = s.memImageMalformed := rfl
@[simp] theorem haltNormally_trace (c : NormalCause) (s : State) : (haltNormally c s).trace = s.trace := rfl

@[simp] theorem advance_regs (b : Bool) (s : State) : (advance b s).regs = s.regs := rfl
@[simp] theorem advance_ra (b : Bool) (s : State) : (advance b s).ra = s.ra := rfl
@[simp] theorem advance_rp (b : Bool) (s : State) : (advance b s).rp = s.rp := rfl
@[simp] theorem advance_pc (b : Bool) (s : State) : (advance b s).pc = (if b then s.rp else s.pc) + 1 := rfl
@[simp] theorem advance_count (b : Bool) (s : State) : (advance b s).count = s.count + 1 := rfl
@[simp] theorem advance_status (b : Bool) (s : State) : (advance b s).status = s.status := rfl
@[simp] theorem advance_mem (b : Bool) (s : State) : (advance b s).mem = s.mem := rfl
@[simp] theorem advance_prog (b : Bool) (s : State) : (advance b s).prog = s.prog := rfl
@[simp] theorem advance_debug (b : Bool) (s : State) : (advance b s).debug = s.debug := rfl
@[simp] theorem advance_opcodeMap (b : Bool) (s : State) : (advance b s).opcodeMap = s.opcodeMap := rfl
@[simp] theorem advance_memImageMalformed (b : Bool) (s : State) : (advance b s).memImageMalformed = s.memImageMalformed := rfl
@[simp] theorem advance_trace (b : Bool) (s : State) : (advance b s).trace = s.trace := rfl

@[simp] theorem resetCore_regs (rv : ResetValues) (s : State) : (resetCore rv s).regs = rv.r := rfl
@[simp] theorem resetCore_ra (rv : ResetValues) (s : State) : (resetCore rv s).ra = rv.ra := rfl
@[simp] theorem resetCore_rp (rv : ResetValues) (s : State) : (resetCore rv s).rp = rv.rp := rfl
@[simp] theorem resetCore_pc (rv : ResetValues) (s : State) : (resetCore rv s).pc = 0 := rfl
@[simp] theorem resetCore_count (rv : ResetValues) (s : State) : (resetCore rv s).count = 0 := rfl
@[simp] theorem resetCore_status (rv : ResetValues) (s : State) : (resetCore rv s).status = .running := rfl
@[simp] theorem resetCore_mem (rv : ResetValues) (s : State) : (resetCore rv s).mem = s.mem := rfl
@[simp] theorem resetCore_prog (rv : ResetValues) (s : State) : (resetCore rv s).prog = s.prog := rfl
@[simp] theorem resetCore_debug (rv : ResetValues) (s : State) : (resetCore rv s).debug = s.debug := rfl
@[simp] theorem resetCore_opcodeMap (rv : ResetValues) (s : State) : (resetCore rv s).opcodeMap = s.opcodeMap := rfl
@[simp] theorem resetCore_memImageMalformed (rv : ResetValues) (s : State) : (resetCore rv s).memImageMalformed = s.memImageMalformed := rfl
@[simp] theorem resetCore_trace (rv : ResetValues) (s : State) : (resetCore rv s).trace = [] := rfl

end Sys2Proof.Machine
end

