-- ==== Sys2Proof/Laws/Ops.lean ====
section
/-! SUPPORT. What each shared operation can do, said once: operand forms, class checks, the loop's commit, fetch and decode. -/

namespace Sys2Proof.Machine

/-! ### Operands -/

theorem registerIndex?_of_eq {f : Field} {r : Fin 8} (h : f.toNat = r.val) : registerIndex? f = some r := by
  have := r.isLt
  simp [registerIndex?, h, show r.val ≤ 7 by omega]

theorem registerIndex?_of_gt {f : Field} (h : f.toNat > 7) : registerIndex? f = none := by
  simp [registerIndex?, h]

/-- A field either names a register or is over 7 (R78). -/
theorem registerIndex?_cases (f : Field) :
    (∃ r : Fin 8, f.toNat = r.val ∧ registerIndex? f = some r) ∨ (f.toNat > 7 ∧ registerIndex? f = none) := by
  by_cases h : f.toNat ≤ 7
  · exact .inl ⟨⟨f.toNat, by omega⟩, rfl, registerIndex?_of_eq rfl⟩
  · exact .inr ⟨by omega, registerIndex?_of_gt (by omega)⟩

/-- The immediate of the fields the immediate class accepts (R77). -/
theorem immediate?_of_le {f : Field} (h : f.toNat ≤ 11) :
    immediate? f = some (if f.toNat ≤ 3 then (f.toNat : Int) else f.toNat - 8) := by
  have hr : -4 ≤ rawImmediate f ∧ rawImmediate f ≤ 3 := by unfold rawImmediate; split <;> omega
  rw [immediate?, if_pos hr, rawImmediate]

theorem immediate?_of_ge {f : Field} (h : f.toNat ≥ 12) : immediate? f = none := by
  have hr : ¬ (-4 ≤ rawImmediate f ∧ rawImmediate f ≤ 3) := by unfold rawImmediate; split <;> omega
  rw [immediate?, if_neg hr]

theorem immediate?_range {f : Field} {imm : Int} (h : immediate? f = some imm) : -4 ≤ imm ∧ imm ≤ 3 := by
  simp only [immediate?] at h
  split at h
  · rename_i hr; cases h; exact hr
  · cases h

theorem shiftAmount?_of_nonneg {v : Word} (h : 0 ≤ v.toInt) : shiftAmount? v = some v.toInt.toNat := by
  simp [shiftAmount?, h]

theorem shiftAmount?_of_neg {v : Word} (h : v.toInt < 0) : shiftAmount? v = none := by
  simp [shiftAmount?, h]

theorem dataAddress?_of_range {v : Word} (h0 : 0 ≤ v.toInt) (h1 : v.toInt ≤ 127) : dataAddress? v = some v.toInt := by
  simp [dataAddress?, h0, h1]

theorem dataAddress?_of_not {v : Word} (h : v.toInt < 0 ∨ 127 < v.toInt) : dataAddress? v = none := by
  simp only [dataAddress?]
  rw [if_neg (by omega)]

/-- The value of a wrapped integer (R11). -/
theorem wrapW_toInt (v : Int) : (wrapW v).toInt = v.bmod (2 ^ 16) := by
  simp [wrapW]

/-- `wrapW` is the identity on the 16-bit range. -/
theorem wrapW_toInt_of_range {v : Int} (h0 : -32768 ≤ v) (h1 : v ≤ 32767) : (wrapW v).toInt = v := by
  rw [wrapW_toInt]
  exact Int.bmod_eq_of_le (by norm_num; omega) (by norm_num; omega)

/-- The range of a register value. -/
theorem toInt_range (v : Word) : -32768 ≤ v.toInt ∧ v.toInt ≤ 32767 := by
  have h1 := v.le_toInt
  have h2 := v.toInt_lt
  norm_num at h1 h2
  omega

/-! ### Registers -/

@[simp] theorem State.reg_setAcc_same (s : State) (v : Word) : (s.setAcc v).reg s.ra = v := by
  simp [State.reg, State.setAcc]

theorem State.reg_setAcc_other (s : State) (v : Word) {j : Fin 8} (h : j ≠ s.ra) : (s.setAcc v).reg j = s.reg j := by
  have : s.ra.val ≠ j.val := fun e => h (Fin.ext e.symm)
  simp [State.reg, State.setAcc, this]

/-- States with equal register files read alike. -/
theorem State.reg_congr {s t : State} (h : t.regs = s.regs) (j : Fin 8) : t.reg j = s.reg j := by
  simp [State.reg, h]

/-! ### Class checks -/

theorem withRegister_ok {m : Mnemonic} {f : Field} {s : State} {k} {r : Fin 8} (h : f.toNat = r.val) :
    withRegister m f s k = k r := by
  simp [withRegister, registerIndex?_of_eq h]

theorem withRegister_fail {m : Mnemonic} {f : Field} {s : State} {k} (h : f.toNat > 7) :
    withRegister m f s k = .next (raise (.operandOutOfRange m f) s) := by
  simp [withRegister, registerIndex?_of_gt h, failOperand]

theorem withShiftAmount_ok {m : Mnemonic} {f : Field} {s : State} {k} {r : Fin 8} (h : f.toNat = r.val)
    (h0 : 0 ≤ (s.reg r).toInt) : withShiftAmount m f s k = k (s.reg r).toInt.toNat := by
  simp [withShiftAmount, withRegister_ok h, shiftAmount?_of_nonneg h0]

theorem withShiftAmount_fail_field {m : Mnemonic} {f : Field} {s : State} {k} (h : f.toNat > 7) :
    withShiftAmount m f s k = .next (raise (.operandOutOfRange m f) s) := withRegister_fail h

theorem withShiftAmount_fail_value {m : Mnemonic} {f : Field} {s : State} {k} {r : Fin 8} (h : f.toNat = r.val)
    (h0 : (s.reg r).toInt < 0) : withShiftAmount m f s k = .next (raise (.operandOutOfRange m f) s) := by
  simp [withShiftAmount, withRegister_ok h, shiftAmount?_of_neg h0, failOperand]

theorem withDataAddress_ok {m : Mnemonic} {f : Field} {s : State} {k} {r : Fin 8} (h : f.toNat = r.val)
    (h0 : 0 ≤ (s.reg r).toInt) (h1 : (s.reg r).toInt ≤ 127) : withDataAddress m f s k = k (s.reg r).toInt := by
  simp [withDataAddress, withRegister_ok h, dataAddress?_of_range h0 h1]

theorem withDataAddress_fail_field {m : Mnemonic} {f : Field} {s : State} {k} (h : f.toNat > 7) :
    withDataAddress m f s k = .next (raise (.operandOutOfRange m f) s) := withRegister_fail h

theorem withDataAddress_fail_value {m : Mnemonic} {f : Field} {s : State} {k} {r : Fin 8} (h : f.toNat = r.val)
    (h0 : (s.reg r).toInt < 0 ∨ 127 < (s.reg r).toInt) :
    withDataAddress m f s k = .next (raise (.operandOutOfRange m f) s) := by
  simp [withDataAddress, withRegister_ok h, dataAddress?_of_not h0, failOperand]

theorem withImmediate_ok {m : Mnemonic} {f : Field} {s : State} {k} {imm : Int} (h : immediate? f = some imm) :
    withImmediate m f s k = k imm := by
  simp [withImmediate, h]

theorem withImmediate_fail {m : Mnemonic} {f : Field} {s : State} {k} (h : immediate? f = none) :
    withImmediate m f s k = .next (raise (.operandOutOfRange m f) s) := by
  simp [withImmediate, h, failOperand]

/-! ### The loop's commit -/

@[simp] theorem emitTrace_regs (m : Mnemonic) (f : Field) (s : State) : (emitTrace m f s).regs = s.regs := by
  unfold emitTrace; split <;> rfl
@[simp] theorem emitTrace_ra (m : Mnemonic) (f : Field) (s : State) : (emitTrace m f s).ra = s.ra := by
  unfold emitTrace; split <;> rfl
@[simp] theorem emitTrace_rp (m : Mnemonic) (f : Field) (s : State) : (emitTrace m f s).rp = s.rp := by
  unfold emitTrace; split <;> rfl
@[simp] theorem emitTrace_pc (m : Mnemonic) (f : Field) (s : State) : (emitTrace m f s).pc = s.pc := by
  unfold emitTrace; split <;> rfl
@[simp] theorem emitTrace_count (m : Mnemonic) (f : Field) (s : State) : (emitTrace m f s).count = s.count := by
  unfold emitTrace; split <;> rfl
@[simp] theorem emitTrace_status (m : Mnemonic) (f : Field) (s : State) : (emitTrace m f s).status = s.status := by
  unfold emitTrace; split <;> rfl
@[simp] theorem emitTrace_mem (m : Mnemonic) (f : Field) (s : State) : (emitTrace m f s).mem = s.mem := by
  unfold emitTrace; split <;> rfl
@[simp] theorem emitTrace_prog (m : Mnemonic) (f : Field) (s : State) : (emitTrace m f s).prog = s.prog := by
  unfold emitTrace; split <;> rfl
@[simp] theorem emitTrace_debug (m : Mnemonic) (f : Field) (s : State) : (emitTrace m f s).debug = s.debug := by
  unfold emitTrace; split <;> rfl
@[simp] theorem emitTrace_opcodeMap (m : Mnemonic) (f : Field) (s : State) :
    (emitTrace m f s).opcodeMap = s.opcodeMap := by
  unfold emitTrace; split <;> rfl
@[simp] theorem emitTrace_memImageMalformed (m : Mnemonic) (f : Field) (s : State) :
    (emitTrace m f s).memImageMalformed = s.memImageMalformed := by
  unfold emitTrace; split <;> rfl
@[simp] theorem emitTrace_trace (m : Mnemonic) (f : Field) (s : State) :
    (emitTrace m f s).trace = if s.debug then s.trace ++ [traceRecord m f s] else s.trace := by
  unfold emitTrace; split <;> rfl

@[simp] theorem applyCeiling_status (s : State) : (applyCeiling s).status =
    if s.count > 1024 then .haltedError .instructionCountExceeded else s.status := by
  by_cases h : s.count > 1024 <;> simp [applyCeiling, overCeiling, h]
/-- The ceiling test changes `status` alone. -/
theorem applyCeiling_eq (s : State) : applyCeiling s = { s with status := (applyCeiling s).status } := by
  unfold applyCeiling; split <;> rfl

@[simp] theorem retire_regs (m : Mnemonic) (f : Field) (b : Bool) (s : State) : (retire m f b s).regs = s.regs := by
  rw [retire, applyCeiling_eq]; simp
@[simp] theorem retire_ra (m : Mnemonic) (f : Field) (b : Bool) (s : State) : (retire m f b s).ra = s.ra := by
  rw [retire, applyCeiling_eq]; simp
@[simp] theorem retire_rp (m : Mnemonic) (f : Field) (b : Bool) (s : State) : (retire m f b s).rp = s.rp := by
  rw [retire, applyCeiling_eq]; simp
@[simp] theorem retire_pc (m : Mnemonic) (f : Field) (b : Bool) (s : State) :
    (retire m f b s).pc = (if b then s.rp else s.pc) + 1 := by
  rw [retire, applyCeiling_eq]; simp
@[simp] theorem retire_count (m : Mnemonic) (f : Field) (b : Bool) (s : State) :
    (retire m f b s).count = s.count + 1 := by
  rw [retire, applyCeiling_eq]; simp
@[simp] theorem retire_mem (m : Mnemonic) (f : Field) (b : Bool) (s : State) : (retire m f b s).mem = s.mem := by
  rw [retire, applyCeiling_eq]; simp
@[simp] theorem retire_prog (m : Mnemonic) (f : Field) (b : Bool) (s : State) : (retire m f b s).prog = s.prog := by
  rw [retire, applyCeiling_eq]; simp
@[simp] theorem retire_debug (m : Mnemonic) (f : Field) (b : Bool) (s : State) : (retire m f b s).debug = s.debug := by
  rw [retire, applyCeiling_eq]; simp
@[simp] theorem retire_opcodeMap (m : Mnemonic) (f : Field) (b : Bool) (s : State) :
    (retire m f b s).opcodeMap = s.opcodeMap := by
  rw [retire, applyCeiling_eq]; simp
@[simp] theorem retire_memImageMalformed (m : Mnemonic) (f : Field) (b : Bool) (s : State) :
    (retire m f b s).memImageMalformed = s.memImageMalformed := by
  rw [retire, applyCeiling_eq]; simp
@[simp] theorem retire_status (m : Mnemonic) (f : Field) (b : Bool) (s : State) :
    (retire m f b s).status = if s.count + 1 > 1024 then .haltedError .instructionCountExceeded else s.status := by
  simp [retire]
@[simp] theorem retire_trace (m : Mnemonic) (f : Field) (b : Bool) (s : State) : (retire m f b s).trace =
    if s.debug then s.trace ++ [⟨m, traceOperand m f, s.regs, s.ra, s.rp, (if b then s.rp else s.pc) + 1⟩]
    else s.trace := by
  rw [retire, applyCeiling_eq]; by_cases h : s.debug <;> simp [traceRecord, h]

@[simp] theorem State.reg_retire (m : Mnemonic) (f : Field) (b : Bool) (s : State) (j : Fin 8) :
    (retire m f b s).reg j = s.reg j := State.reg_congr (retire_regs m f b s) j

/-! ### Fetch and decode -/

/-- Fetch answers a word exactly when `pc` is in range (R42, R102). -/
theorem fetch_eq_some {s : State} {w : InstrWord} :
    fetch s = some w ↔ 0 ≤ s.pc ∧ s.prog[s.pc.toNat]? = some w := by
  unfold fetch inProgram
  by_cases h : 0 ≤ s.pc ∧ s.pc < s.prog.length
  · simp [h]
  · simp only [h, decide_false, Bool.false_eq_true, if_false]
    refine ⟨fun e => absurd e (by simp), fun ⟨h0, e⟩ => ?_⟩
    have := (List.getElem?_eq_some_iff.1 e).1
    omega

theorem fetch_eq_none {s : State} : fetch s = none ↔ s.pc < 0 ∨ (s.prog.length : Int) ≤ s.pc := by
  rcases hf : fetch s with _ | w
  · refine ⟨fun _ => ?_, fun _ => rfl⟩
    by_contra hc
    have hlt : s.pc.toNat < s.prog.length := by omega
    have := fetch_eq_some.2 ⟨by omega, List.getElem?_eq_getElem hlt⟩
    simp [hf] at this
  · refine ⟨fun e => by simp at e, fun hc => ?_⟩
    have h := fetch_eq_some.1 hf
    have := (List.getElem?_eq_some_iff.1 h.2).1
    omega

theorem nextInstr_halted {s : State} (h : s.status ≠ .running) : nextInstr s = .error s := by
  simp [nextInstr, h]

theorem nextInstr_endOfProgram {s : State} (h : s.status = .running) (hf : fetch s = none) :
    nextInstr s = .error (haltNormally .endOfProgram s) := by
  simp [nextInstr, h, hf]

/-- There is an instruction to execute exactly when the core runs, `pc` is in range and the word decodes (R109). -/
theorem nextInstr_eq_ok {s : State} {i : Instr} : nextInstr s = .ok i ↔
    s.status = .running ∧ ∃ w, 0 ≤ s.pc ∧ s.prog[s.pc.toNat]? = some w ∧ decode s.opcodeMap w = .ok i := by
  by_cases h : s.status = .running
  · rcases hf : fetch s with _ | w
    · simp only [nextInstr, h, hf, if_true, true_and, reduceCtorEq, false_iff]
      rintro ⟨w, h0, hw, -⟩
      rw [fetch_eq_some.2 ⟨h0, hw⟩] at hf
      cases hf
    · have hw := fetch_eq_some.1 hf
      rcases hd : decode s.opcodeMap w with e | j
      · simp [nextInstr, h, hf, hd, hw]
      · simp [nextInstr, h, hf, hd, hw]
  · simp [nextInstr, h]

/-- What a step without an instruction can be: the halted core as it is, the end of the program, or an opcode that the
map lacks (R100, R102, R212). -/
theorem nextInstr_eq_error {s t : State} (h : nextInstr s = .error t) :
    (s.status ≠ .running ∧ t = s) ∨
    (s.status = .running ∧ fetch s = none ∧ t = haltNormally .endOfProgram s) ∨
    (s.status = .running ∧ ∃ w op, fetch s = some w ∧ decode s.opcodeMap w = .error (.opcodeNotInTable op) ∧
      t = raise (.decodeFailure op) s) := by
  unfold nextInstr at h
  split at h
  · rename_i hr
    split at h
    · rename_i hf; cases h; exact .inr (.inl ⟨hr, hf, rfl⟩)
    · rename_i w hf
      split at h
      · rename_i e hd; cases h; cases e; exact .inr (.inr ⟨hr, w, _, hf, hd, rfl⟩)
      · cases h
  · rename_i hr; cases h; exact .inl ⟨hr, rfl⟩

/-- With an opcode map that has an entry for every opcode, decoding answers an instruction (R73, R79). -/
theorem decode_ok_of_length {om : OpcodeMap} (h : om.length = 16) (w : InstrWord) :
    ∃ m, om[(opcodeField w).toNat]? = some m ∧ decode om w = .ok (Instr.ofMnemonic m (operandField w)) := by
  have hlt : (opcodeField w).toNat < om.length := by have := (opcodeField w).isLt; omega
  refine ⟨om[(opcodeField w).toNat], List.getElem?_eq_getElem hlt, ?_⟩
  simp [decode, List.getElem?_eq_getElem hlt]

end Sys2Proof.Machine
end

