-- ==== Sys2Proof/Laws/Exec.lean ====
section
/-! SUPPORT. What an instruction and a step can do, said once. -/

namespace Sys2Proof.Machine

/-- What a handler leaves of the state before the loop's commit: it writes at most one of `R[Ra]`, `Ra`, `Rp` and one
cell, each only in the instructions that the rules name (R104, R107). -/
structure HandlerLeaves (m : Mnemonic) (s w : State) : Prop where
  pc : w.pc = s.pc
  count : w.count = s.count
  status : w.status = s.status
  config : sameConfig s w
  trace : w.trace = s.trace
  regs : w.regs = s.regs ∨ (∃ v, w = s.setAcc v) ∧
    m ∈ ([.add, .mov, .nand, .sub, .mlt, .sll, .srl, .load, .movi, .addi] : List Mnemonic)
  ra : w.ra = s.ra ∨ m = .sar
  rp : w.rp = s.rp ∨ m = .spc ∧ ∃ v : Word, w.rp = s.pc + v.toInt
  mem : w.mem = s.mem ∨ m = .stor ∧ ∃ a v, memWrite s.mem a v = .ok w.mem

theorem HandlerLeaves.same (m : Mnemonic) (s : State) : HandlerLeaves m s s :=
  ⟨rfl, rfl, rfl, ⟨rfl, rfl, rfl, rfl⟩, rfl, .inl rfl, .inl rfl, .inl rfl, .inl rfl⟩

theorem HandlerLeaves.setAcc {m : Mnemonic} (s : State) (v : Word)
    (h : m ∈ ([.add, .mov, .nand, .sub, .mlt, .sll, .srl, .load, .movi, .addi] : List Mnemonic)) :
    HandlerLeaves m s (s.setAcc v) :=
  ⟨rfl, rfl, rfl, ⟨rfl, rfl, rfl, rfl⟩, rfl, .inr ⟨⟨v, rfl⟩, h⟩, .inl rfl, .inl rfl, .inl rfl⟩

/-- The three things an instruction can do: fail its operand check, halt by `STOP`, or commit what its handler leaves. -/
inductive ExecDoes (i : Instr) (s : State) : Prop where
  | fails (h : exec i s = .next (raise (.operandOutOfRange i.mnemonic i.field) s)) (hn : i.mnemonic ≠ .stop)
  | stops (h : exec i s = .next (haltNormally .stop s)) (hn : i.mnemonic = .stop)
  | commits (w : State) (b : Bool) (h : exec i s = .next (retire i.mnemonic i.field b w))
      (hn : i.mnemonic ≠ .stop) (hw : HandlerLeaves i.mnemonic s w)

/-- Every instruction does one of the three, in every state. -/
theorem exec_does (i : Instr) (s : State) : ExecDoes i s := by
  cases i with
  | sar f =>
    rcases registerIndex?_cases f with ⟨r, h, -⟩ | ⟨h, -⟩
    · exact .commits (s.setRa r) false (withRegister_ok h) (by simp [Instr.mnemonic])
        ⟨rfl, rfl, rfl, ⟨rfl, rfl, rfl, rfl⟩, rfl, .inl rfl, .inr rfl, .inl rfl, .inl rfl⟩
    · exact .fails (withRegister_fail h) (by simp [Instr.mnemonic])
  | add f =>
    rcases registerIndex?_cases f with ⟨r, h, -⟩ | ⟨h, -⟩
    · exact .commits _ false (withRegister_ok h) (by simp [Instr.mnemonic]) (.setAcc s _ (by simp [Instr.mnemonic]))
    · exact .fails (withRegister_fail h) (by simp [Instr.mnemonic])
  | mov f =>
    rcases registerIndex?_cases f with ⟨r, h, -⟩ | ⟨h, -⟩
    · exact .commits _ false (withRegister_ok h) (by simp [Instr.mnemonic]) (.setAcc s _ (by simp [Instr.mnemonic]))
    · exact .fails (withRegister_fail h) (by simp [Instr.mnemonic])
  | nand f =>
    rcases registerIndex?_cases f with ⟨r, h, -⟩ | ⟨h, -⟩
    · exact .commits _ false (withRegister_ok h) (by simp [Instr.mnemonic]) (.setAcc s _ (by simp [Instr.mnemonic]))
    · exact .fails (withRegister_fail h) (by simp [Instr.mnemonic])
  | sub f =>
    rcases registerIndex?_cases f with ⟨r, h, -⟩ | ⟨h, -⟩
    · exact .commits _ false (withRegister_ok h) (by simp [Instr.mnemonic]) (.setAcc s _ (by simp [Instr.mnemonic]))
    · exact .fails (withRegister_fail h) (by simp [Instr.mnemonic])
  | mlt f =>
    rcases registerIndex?_cases f with ⟨r, h, -⟩ | ⟨h, -⟩
    · exact .commits _ false (withRegister_ok h) (by simp [Instr.mnemonic]) (.setAcc s _ (by simp [Instr.mnemonic]))
    · exact .fails (withRegister_fail h) (by simp [Instr.mnemonic])
  | bslt f =>
    rcases registerIndex?_cases f with ⟨r, h, -⟩ | ⟨h, -⟩
    · exact .commits s _ (withRegister_ok h) (by simp [Instr.mnemonic]) (.same _ s)
    · exact .fails (withRegister_fail h) (by simp [Instr.mnemonic])
  | spc f =>
    rcases registerIndex?_cases f with ⟨r, h, -⟩ | ⟨h, -⟩
    · exact .commits (s.setRp _) false (withRegister_ok h) (by simp [Instr.mnemonic])
        ⟨rfl, rfl, rfl, ⟨rfl, rfl, rfl, rfl⟩, rfl, .inl rfl, .inl rfl, .inr ⟨rfl, s.reg r, rfl⟩, .inl rfl⟩
    · exact .fails (withRegister_fail h) (by simp [Instr.mnemonic])
  | sll f =>
    rcases registerIndex?_cases f with ⟨r, h, -⟩ | ⟨h, -⟩
    · by_cases h0 : 0 ≤ (s.reg r).toInt
      · exact .commits _ false (withShiftAmount_ok h h0) (by simp [Instr.mnemonic])
          (.setAcc s _ (by simp [Instr.mnemonic]))
      · exact .fails (withShiftAmount_fail_value h (by omega)) (by simp [Instr.mnemonic])
    · exact .fails (withShiftAmount_fail_field h) (by simp [Instr.mnemonic])
  | srl f =>
    rcases registerIndex?_cases f with ⟨r, h, -⟩ | ⟨h, -⟩
    · by_cases h0 : 0 ≤ (s.reg r).toInt
      · exact .commits _ false (withShiftAmount_ok h h0) (by simp [Instr.mnemonic])
          (.setAcc s _ (by simp [Instr.mnemonic]))
      · exact .fails (withShiftAmount_fail_value h (by omega)) (by simp [Instr.mnemonic])
    · exact .fails (withShiftAmount_fail_field h) (by simp [Instr.mnemonic])
  | load f =>
    rcases registerIndex?_cases f with ⟨r, h, -⟩ | ⟨h, -⟩
    · by_cases h0 : 0 ≤ (s.reg r).toInt ∧ (s.reg r).toInt ≤ 127
      · refine .commits _ false ((withDataAddress_ok h h0.1 h0.2).trans ?_) (by simp [Instr.mnemonic])
          (.setAcc s (s.mem.read (s.reg r).toInt.toNat) (by simp [Instr.mnemonic]))
        simp [memRead_of_range h0.1 h0.2, commit, Instr.mnemonic, Instr.field]
      · exact .fails (withDataAddress_fail_value h (by omega)) (by simp [Instr.mnemonic])
    · exact .fails (withDataAddress_fail_field h) (by simp [Instr.mnemonic])
  | stor f =>
    rcases registerIndex?_cases f with ⟨r, h, -⟩ | ⟨h, -⟩
    · by_cases h0 : 0 ≤ (s.reg r).toInt ∧ (s.reg r).toInt ≤ 127
      · refine .commits (s.setMem (s.mem.write (s.reg r).toInt.toNat s.acc)) false
          ((withDataAddress_ok h h0.1 h0.2).trans ?_) (by simp [Instr.mnemonic])
          ⟨rfl, rfl, rfl, ⟨rfl, rfl, rfl, rfl⟩, rfl, .inl rfl, .inl rfl, .inl rfl,
            .inr ⟨rfl, _, _, memWrite_of_range _ h0.1 h0.2⟩⟩
        simp [memWrite_of_range _ h0.1 h0.2, commit, Instr.mnemonic, Instr.field]
      · exact .fails (withDataAddress_fail_value h (by omega)) (by simp [Instr.mnemonic])
    · exact .fails (withDataAddress_fail_field h) (by simp [Instr.mnemonic])
  | movi f =>
    rcases h : immediate? f with _ | imm
    · exact .fails (withImmediate_fail h) (by simp [Instr.mnemonic])
    · exact .commits _ false (withImmediate_ok h) (by simp [Instr.mnemonic]) (.setAcc s _ (by simp [Instr.mnemonic]))
  | addi f =>
    rcases h : immediate? f with _ | imm
    · exact .fails (withImmediate_fail h) (by simp [Instr.mnemonic])
    · exact .commits _ false (withImmediate_ok h) (by simp [Instr.mnemonic]) (.setAcc s _ (by simp [Instr.mnemonic]))
  | b f => exact .commits s true rfl (by simp [Instr.mnemonic]) (.same _ s)
  | stop f => exact .stops rfl rfl

/-- A step that has an instruction to execute is `exec` of it. -/
theorem step_of_ok {s : State} {i : Instr} (h : nextInstr s = .ok i) : step s = exec i s := by
  simp [step, h]

/-- A step that has none answers the state in which it ends. -/
theorem step_of_error {s t : State} (h : nextInstr s = .error t) : step s = .next t := by
  simp [step, h]

theorem run_succ_of_step {s t : State} (k : Nat) (h : step s = .next t) : run (k + 1) s = run k t := by
  simp [run, h]

end Sys2Proof.Machine
end

