-- ==== Sys2Proof/Laws/PerInstr.lean ====
section
/-! SUPPORT. Statements about every instruction as syntax, one lemma per constructor. -/

namespace Sys2Proof

theorem operandField_append (op f : Field) : operandField (op ++ f) = f := by revert op f; decide

theorem opcodeField_append (op f : Field) : opcodeField (op ++ f) = op := by revert op f; decide

/-- A word splits into its two fields (R71). -/
theorem fields_append (w : InstrWord) : opcodeField w ++ operandField w = w := by revert w; decide

@[simp] theorem Instr.mnemonic_ofMnemonic (m : Mnemonic) (f : Field) : (Instr.ofMnemonic m f).mnemonic = m := by
  cases m <;> rfl

@[simp] theorem Instr.field_ofMnemonic (m : Mnemonic) (f : Field) : (Instr.ofMnemonic m f).field = f := by
  cases m <;> rfl

/-- An instruction is its mnemonic and its field. -/
@[simp] theorem Instr.ofMnemonic_eta (i : Instr) : Instr.ofMnemonic i.mnemonic i.field = i := by
  cases i <;> rfl

/-- Under the default map an instruction's word, its opcode value followed by its field, decodes to it (R75). -/
theorem decode_default {i : Instr} (h : defaultOpcodeMap[(opcodeOf defaultOpcodeMap i.mnemonic).toNat]? = some i.mnemonic) :
    decode defaultOpcodeMap (encode defaultOpcodeMap i) = .ok i := by
  simp [decode, encode, opcodeField_append, operandField_append, h]

/-- The instruction round-trips under the default opcode map. -/
def Laws.DefaultRoundTrip.Statement (i : Instr) : Prop := decode defaultOpcodeMap (encode defaultOpcodeMap i) = .ok i

theorem Laws.DefaultRoundTrip.sar (f : Field) : Laws.DefaultRoundTrip.Statement (.sar f) :=
  decode_default (i := .sar f) (show defaultOpcodeMap[(opcodeOf defaultOpcodeMap Mnemonic.sar).toNat]? = some Mnemonic.sar by decide)
theorem Laws.DefaultRoundTrip.add (f : Field) : Laws.DefaultRoundTrip.Statement (.add f) :=
  decode_default (i := .add f) (show defaultOpcodeMap[(opcodeOf defaultOpcodeMap Mnemonic.add).toNat]? = some Mnemonic.add by decide)
theorem Laws.DefaultRoundTrip.mov (f : Field) : Laws.DefaultRoundTrip.Statement (.mov f) :=
  decode_default (i := .mov f) (show defaultOpcodeMap[(opcodeOf defaultOpcodeMap Mnemonic.mov).toNat]? = some Mnemonic.mov by decide)
theorem Laws.DefaultRoundTrip.nand (f : Field) : Laws.DefaultRoundTrip.Statement (.nand f) :=
  decode_default (i := .nand f) (show defaultOpcodeMap[(opcodeOf defaultOpcodeMap Mnemonic.nand).toNat]? = some Mnemonic.nand by decide)
theorem Laws.DefaultRoundTrip.sll (f : Field) : Laws.DefaultRoundTrip.Statement (.sll f) :=
  decode_default (i := .sll f) (show defaultOpcodeMap[(opcodeOf defaultOpcodeMap Mnemonic.sll).toNat]? = some Mnemonic.sll by decide)
theorem Laws.DefaultRoundTrip.srl (f : Field) : Laws.DefaultRoundTrip.Statement (.srl f) :=
  decode_default (i := .srl f) (show defaultOpcodeMap[(opcodeOf defaultOpcodeMap Mnemonic.srl).toNat]? = some Mnemonic.srl by decide)
theorem Laws.DefaultRoundTrip.load (f : Field) : Laws.DefaultRoundTrip.Statement (.load f) :=
  decode_default (i := .load f) (show defaultOpcodeMap[(opcodeOf defaultOpcodeMap Mnemonic.load).toNat]? = some Mnemonic.load by decide)
theorem Laws.DefaultRoundTrip.stor (f : Field) : Laws.DefaultRoundTrip.Statement (.stor f) :=
  decode_default (i := .stor f) (show defaultOpcodeMap[(opcodeOf defaultOpcodeMap Mnemonic.stor).toNat]? = some Mnemonic.stor by decide)
theorem Laws.DefaultRoundTrip.sub (f : Field) : Laws.DefaultRoundTrip.Statement (.sub f) :=
  decode_default (i := .sub f) (show defaultOpcodeMap[(opcodeOf defaultOpcodeMap Mnemonic.sub).toNat]? = some Mnemonic.sub by decide)
theorem Laws.DefaultRoundTrip.mlt (f : Field) : Laws.DefaultRoundTrip.Statement (.mlt f) :=
  decode_default (i := .mlt f) (show defaultOpcodeMap[(opcodeOf defaultOpcodeMap Mnemonic.mlt).toNat]? = some Mnemonic.mlt by decide)
theorem Laws.DefaultRoundTrip.bslt (f : Field) : Laws.DefaultRoundTrip.Statement (.bslt f) :=
  decode_default (i := .bslt f) (show defaultOpcodeMap[(opcodeOf defaultOpcodeMap Mnemonic.bslt).toNat]? = some Mnemonic.bslt by decide)
theorem Laws.DefaultRoundTrip.movi (f : Field) : Laws.DefaultRoundTrip.Statement (.movi f) :=
  decode_default (i := .movi f) (show defaultOpcodeMap[(opcodeOf defaultOpcodeMap Mnemonic.movi).toNat]? = some Mnemonic.movi by decide)
theorem Laws.DefaultRoundTrip.addi (f : Field) : Laws.DefaultRoundTrip.Statement (.addi f) :=
  decode_default (i := .addi f) (show defaultOpcodeMap[(opcodeOf defaultOpcodeMap Mnemonic.addi).toNat]? = some Mnemonic.addi by decide)
theorem Laws.DefaultRoundTrip.spc (f : Field) : Laws.DefaultRoundTrip.Statement (.spc f) :=
  decode_default (i := .spc f) (show defaultOpcodeMap[(opcodeOf defaultOpcodeMap Mnemonic.spc).toNat]? = some Mnemonic.spc by decide)
theorem Laws.DefaultRoundTrip.b (f : Field) : Laws.DefaultRoundTrip.Statement (.b f) :=
  decode_default (i := .b f) (show defaultOpcodeMap[(opcodeOf defaultOpcodeMap Mnemonic.b).toNat]? = some Mnemonic.b by decide)
theorem Laws.DefaultRoundTrip.stop (f : Field) : Laws.DefaultRoundTrip.Statement (.stop f) :=
  decode_default (i := .stop f) (show defaultOpcodeMap[(opcodeOf defaultOpcodeMap Mnemonic.stop).toNat]? = some Mnemonic.stop by decide)

end Sys2Proof
end

