-- ==== Sys2Proof/Laws/Ports.lean ====
section
/-! SUPPORT. The host interface: what a launch and a reset edge leave, field by field, and when they are accepted. -/

namespace Sys2Proof.Machine

@[simp] theorem launchState_regs (l : Launch) (ws : List Word) : (launchState l ws).regs = l.resetValues.r := rfl
@[simp] theorem launchState_ra (l : Launch) (ws : List Word) : (launchState l ws).ra = l.resetValues.ra := rfl
@[simp] theorem launchState_rp (l : Launch) (ws : List Word) : (launchState l ws).rp = l.resetValues.rp := rfl
@[simp] theorem launchState_pc (l : Launch) (ws : List Word) : (launchState l ws).pc = 0 := rfl
@[simp] theorem launchState_count (l : Launch) (ws : List Word) : (launchState l ws).count = 0 := rfl
@[simp] theorem launchState_status (l : Launch) (ws : List Word) : (launchState l ws).status = .running := rfl
@[simp] theorem launchState_mem (l : Launch) (ws : List Word) : (launchState l ws).mem = Memory.ofWords 0 ws := rfl
@[simp] theorem launchState_prog (l : Launch) (ws : List Word) : (launchState l ws).prog = l.program := rfl
@[simp] theorem launchState_debug (l : Launch) (ws : List Word) : (launchState l ws).debug = l.debug := rfl
@[simp] theorem launchState_opcodeMap (l : Launch) (ws : List Word) : (launchState l ws).opcodeMap = l.opcodeMap := rfl
@[simp] theorem launchState_memImageMalformed (l : Launch) (ws : List Word) : (launchState l ws).memImageMalformed =
    imageMalformed l.image := rfl
@[simp] theorem launchState_trace (l : Launch) (ws : List Word) : (launchState l ws).trace = [] := rfl

@[simp] theorem resetState_regs (rv : ResetValues) (inp : Inputs) (s : State) :
    (resetState rv inp s).regs = rv.r := rfl
@[simp] theorem resetState_ra (rv : ResetValues) (inp : Inputs) (s : State) :
    (resetState rv inp s).ra = rv.ra := rfl
@[simp] theorem resetState_rp (rv : ResetValues) (inp : Inputs) (s : State) :
    (resetState rv inp s).rp = rv.rp := rfl
@[simp] theorem resetState_pc (rv : ResetValues) (inp : Inputs) (s : State) :
    (resetState rv inp s).pc = 0 := rfl
@[simp] theorem resetState_count (rv : ResetValues) (inp : Inputs) (s : State) :
    (resetState rv inp s).count = 0 := rfl
@[simp] theorem resetState_status (rv : ResetValues) (inp : Inputs) (s : State) :
    (resetState rv inp s).status = .running := rfl
@[simp] theorem resetState_mem (rv : ResetValues) (inp : Inputs) (s : State) :
    (resetState rv inp s).mem = if inp.hmemWe then s.mem.write inp.hmemAddr.toNat inp.hmemWdata else s.mem := rfl
@[simp] theorem resetState_prog (rv : ResetValues) (inp : Inputs) (s : State) :
    (resetState rv inp s).prog = inp.program := rfl
@[simp] theorem resetState_debug (rv : ResetValues) (inp : Inputs) (s : State) :
    (resetState rv inp s).debug = inp.debug := rfl
@[simp] theorem resetState_opcodeMap (rv : ResetValues) (inp : Inputs) (s : State) :
    (resetState rv inp s).opcodeMap = inp.opcodeMap := rfl
@[simp] theorem resetState_memImageMalformed (rv : ResetValues) (inp : Inputs) (s : State) :
    (resetState rv inp s).memImageMalformed = inp.memImageMalformed := rfl
@[simp] theorem resetState_trace (rv : ResetValues) (inp : Inputs) (s : State) :
    (resetState rv inp s).trace = [] := rfl

@[simp] theorem driveLoaderReport_memImageMalformed (b : Bool) (s : State) :
    (driveLoaderReport b s).memImageMalformed = b := rfl
@[simp] theorem driveLoaderReport_regs (b : Bool) (s : State) : (driveLoaderReport b s).regs = s.regs := rfl
@[simp] theorem driveLoaderReport_ra (b : Bool) (s : State) : (driveLoaderReport b s).ra = s.ra := rfl
@[simp] theorem driveLoaderReport_rp (b : Bool) (s : State) : (driveLoaderReport b s).rp = s.rp := rfl
@[simp] theorem driveLoaderReport_pc (b : Bool) (s : State) : (driveLoaderReport b s).pc = s.pc := rfl
@[simp] theorem driveLoaderReport_count (b : Bool) (s : State) : (driveLoaderReport b s).count = s.count := rfl
@[simp] theorem driveLoaderReport_status (b : Bool) (s : State) : (driveLoaderReport b s).status = s.status := rfl
@[simp] theorem driveLoaderReport_mem (b : Bool) (s : State) : (driveLoaderReport b s).mem = s.mem := rfl
@[simp] theorem driveLoaderReport_prog (b : Bool) (s : State) : (driveLoaderReport b s).prog = s.prog := rfl
@[simp] theorem driveLoaderReport_debug (b : Bool) (s : State) : (driveLoaderReport b s).debug = s.debug := rfl
@[simp] theorem driveLoaderReport_opcodeMap (b : Bool) (s : State) : (driveLoaderReport b s).opcodeMap = s.opcodeMap := rfl
@[simp] theorem driveLoaderReport_trace (b : Bool) (s : State) : (driveLoaderReport b s).trace = s.trace := rfl

/-- An image has no bad value exactly when each of its values fits a cell. -/
theorem imageBadValue?_eq_none {image : List Int} :
    imageBadValue? image = none ↔ ∀ v ∈ image, -32768 ≤ v ∧ v ≤ 32767 := by
  simp [imageBadValue?, List.find?_eq_none]

/-- A bad value is one of the image's, and does not fit a cell. -/
theorem imageBadValue?_eq_some {image : List Int} {v : Int} (h : imageBadValue? image = some v) :
    v ∈ image ∧ (v < -32768 ∨ 32767 < v) :=
  ⟨List.mem_of_find?_eq_some h, by simpa using List.find?_some h⟩

/-- An image is loaded exactly when every value fits a cell; the words are the image's, or zeros for another length. -/
theorem loadImage_eq_ok {image : List Int} {ws : List Word} : loadImage image = .ok ws ↔
    (∀ v ∈ image, -32768 ≤ v ∧ v ≤ 32767) ∧
    ws = if imageMalformed image then List.replicate Config.memSize 0 else image.map wrapW := by
  rw [← imageBadValue?_eq_none, loadImage]
  rcases imageBadValue? image with _ | v
  · exact ⟨fun h => ⟨rfl, (Except.ok.inj h).symm⟩, fun h => congrArg _ h.2.symm⟩
  · exact ⟨fun h => (by cases h), fun h => (by cases h.1)⟩

/-- An image with a value that does not fit a cell is refused, naming such a value. -/
theorem loadImage_of_bad {image : List Int} {u : Int} (hu : u ∈ image) (hb : u < -32768 ∨ 32767 < u) :
    ∃ v ∈ image, (v < -32768 ∨ 32767 < v) ∧ loadImage image = .error (.imageValueOutOfRange v) := by
  rcases h : imageBadValue? image with _ | v
  · have := imageBadValue?_eq_none.1 h u hu
    omega
  · have hv := imageBadValue?_eq_some h
    exact ⟨v, hv.1, hv.2, by rw [loadImage, h]⟩

/-- The words of a loaded image are 128. -/
theorem loadImage_length {image : List Int} {ws : List Word} (h : loadImage image = .ok ws) : ws.length = 128 := by
  obtain ⟨-, rfl⟩ := loadImage_eq_ok.1 h
  split
  · simp
  · rename_i h
    simpa [imageMalformed] using h

/-- A launch answers a state exactly when its image can be loaded, its program fits and its opcode map is legal. -/
theorem launch_eq_next {l : Launch} {t : State} : launch l = .next t ↔
    ∃ ws, loadImage l.image = .ok ws ∧ l.program.length ≤ Config.maxProgramLength ∧ l.opcodeMap.legal ∧
      t = launchState l ws := by
  unfold launch
  rcases hi : loadImage l.image with e | ws
  · exact ⟨fun h => (by cases h), fun ⟨_, h, _⟩ => (by cases h)⟩
  · dsimp only
    split_ifs with hp hm
    · exact ⟨fun h => (by cases h), fun ⟨_, _, h, _⟩ => absurd h (Nat.not_le.2 hp)⟩
    · refine ⟨fun h => ?_, fun ⟨_, h, _, _, ht⟩ => by cases h; rw [ht]⟩
      cases h
      exact ⟨ws, rfl, Nat.not_lt.1 hp, hm, rfl⟩
    · exact ⟨fun h => (by cases h), fun ⟨_, _, _, h, _⟩ => absurd h hm⟩

/-- A reset edge with a configuration the hardware has. -/
theorem clockEdge_reset {rv : ResetValues} {inp : Inputs} {s : State} (h : inp.rst = true)
    (hp : inp.program.length ≤ Config.maxProgramLength) (hm : inp.opcodeMap.legal) :
    clockEdge rv inp s = .next (resetState rv inp s) := by
  unfold clockEdge resetEdge
  rw [if_pos h, if_neg (Nat.not_lt.2 hp), if_neg (not_not.2 hm)]

/-- All that a clock edge which answers a state can do: reset a configuration the hardware has, or step with the loader's
report as the edge drives it. -/
theorem clockEdge_cases {rv : ResetValues} {inp : Inputs} {s t : State} (h : clockEdge rv inp s = .next t) :
    (inp.rst = true ∧ inp.program.length ≤ Config.maxProgramLength ∧ inp.opcodeMap.legal ∧ t = resetState rv inp s) ∨
    (inp.rst = false ∧ inp.hmemWe = false ∧ step (driveLoaderReport inp.memImageMalformed s) = .next t) := by
  unfold clockEdge resetEdge at h
  split_ifs at h with hr hp hm hw
  · cases h
    exact .inl ⟨hr, Nat.not_lt.1 hp, hm, rfl⟩
  · exact .inr ⟨by simpa using hr, by simpa using hw, h⟩

/-- The memory of a launch is canonical. -/
theorem launchState_mem_wf (l : Launch) {ws : List Word} (h : ws.length ≤ 128) : (launchState l ws).mem.wf :=
  Memory.ofWords_wf (by omega)

/-- The empty launch answers the state after reset. -/
theorem launch_empty : launch Launch.empty = .next State.reset := by
  refine launch_eq_next.2 ⟨List.replicate 128 0, by decide +kernel, by decide, by decide, ?_⟩
  rw [launchState, show Memory.ofWords 0 (List.replicate 128 0) = [] by decide +kernel,
    show imageMalformed Launch.empty.image = false by decide +kernel]
  rfl

end Sys2Proof.Machine
end

