-- ==== Sys2Proof/Tests/Slice0.lean ====
section
/-! SUPPORT. The model's own tests: well-formedness, decoding, one step per instruction from the spec's vectors
(95_test_vectors.md), and a witness for the hypotheses of each statement. -/

namespace Sys2Proof.Machine.Tests

/-! ### Helpers -/

/-- A running core at `pc = 10` with `Ra` and some registers set, as the derived vectors have it. -/
def start (ra : Fin 8) (rs : List (Fin 8 × Int)) : State :=
  rs.foldl (fun s p => { s with regs := s.regs.set p.1 (wrapW p.2) }) { State.reset with ra := ra, pc := 10 }

/-- A running core with a program. -/
def withProg (p : List InstrWord) : State := { State.reset with prog := p }

def next? (o : Host.Outcome State Fault Refusal) : Option State :=
  match o with
  | .next t => some t
  | _ => none

/-- The value of `R[i]` after an instruction. -/
def regAfter (i : Instr) (s : State) (r : Fin 8) : Option Int := (next? (exec i s)).map fun t => (t.reg r).toInt

/-- The instruction halts with `OperandOutOfRange(m, f)` and changes nothing else. -/
def failsWith (i : Instr) (s : State) (m : Mnemonic) (f : Field) : Bool :=
  decide (next? (exec i s) = some (haltedOutOfRange m f s))

/-- `nextInstr` answers an instruction. -/
def instrAt (s : State) : Option Instr := (nextInstr s).toOption

/-! ### Well-formedness: a term that each check refuses -/

theorem test_register_field_8_ill_formed : Instr.wellFormed (.nand 8) = false := by decide
theorem test_shift_field_8_ill_formed : Instr.wellFormed (.sll 8) = false := by decide
theorem test_memory_field_15_ill_formed : Instr.wellFormed (.stor 15) = false := by decide
theorem test_immediate_field_12_ill_formed : Instr.wellFormed (.movi 12) = false := by decide
theorem test_alias_field_11_well_formed : Instr.wellFormed (.addi 11) = true := by decide
theorem test_control_any_field_well_formed : Instr.wellFormed (.stop 15) = true := by decide
theorem test_short_map_illegal : ¬ OpcodeMap.legal (defaultOpcodeMap.take 15) := by decide
theorem test_repeating_map_illegal : ¬ OpcodeMap.legal (.sar :: .sar :: defaultOpcodeMap.drop 2) := by decide
theorem test_map_moving_sar_illegal :
    ¬ OpcodeMap.legal (.add :: .sar :: defaultOpcodeMap.drop 2) := by decide
theorem test_map_moving_stop_illegal :
    ¬ OpcodeMap.legal (defaultOpcodeMap.take 14 ++ [.stop, .b]) := by decide

/-! ### Decoding: words written out from R75 and the decoder vectors -/

theorem test_decode_sar : decodeTableWord 8 0b00000101 = some (.sar 5) := by decide
theorem test_decode_add : decodeTableWord 8 0b00010001 = some (.add 1) := by decide
theorem test_decode_mov : decodeTableWord 8 0b00100000 = some (.mov 0) := by decide
theorem test_decode_nand : decodeTableWord 8 0b00110111 = some (.nand 7) := by decide
theorem test_decode_sll : decodeTableWord 8 0b01000001 = some (.sll 1) := by decide
theorem test_decode_srl : decodeTableWord 8 0b01010011 = some (.srl 3) := by decide
theorem test_decode_load : decodeTableWord 8 0b01100001 = some (.load 1) := by decide
theorem test_decode_stor : decodeTableWord 8 0b01110010 = some (.stor 2) := by decide
theorem test_decode_sub : decodeTableWord 8 0b10000001 = some (.sub 1) := by decide
theorem test_decode_mlt : decodeTableWord 8 0b10010001 = some (.mlt 1) := by decide
theorem test_decode_bslt : decodeTableWord 8 0b10100010 = some (.bslt 2) := by decide
theorem test_decode_movi : decodeTableWord 8 0b10110100 = some (.movi 4) := by decide
theorem test_decode_addi : decodeTableWord 8 0b11001100 = some (.addi 12) := by decide
theorem test_decode_spc : decodeTableWord 8 0b11010011 = some (.spc 3) := by decide
theorem test_decode_b : decodeTableWord 8 0b11101001 = some (.b 9) := by decide
theorem test_decode_stop : decodeTableWord 8 0b11111111 = some (.stop 15) := by decide
theorem test_decode_refuses_other_lengths : decodeTableWord 3 5 = none ∧ decodeTableWord 16 5 = none := by decide
/-- R71: character 0 of the text is `word[7]` ("`10110111`" is `0xB7`). -/
theorem test_text_order :
    wordOfText [true, false, true, true, false, true, true, true] = some 0xB7#8 ∧ wordOfText [true] = none := by decide
/-- An opcode that the map lacks is rejected by name. -/
theorem test_decode_missing_opcode : decode [.sar] 0x10#8 = .error (.opcodeNotInTable 1) := rfl
theorem test_encode_movi : encode defaultOpcodeMap (.movi 7) = 0xB7#8 := by decide
theorem test_assemble_movi_minus_1 : assemble ⟨.movi, some (-1)⟩ = some (.movi 7) := by decide
theorem test_assemble_rejects_4 : assemble ⟨.movi, some 4⟩ = none ∧ assemble ⟨.b, some 0⟩ = none := by decide
/-- The host's placing of a word: the next step runs it. -/
theorem test_fetch_word_runs : instrAt (State.reset.withFetchWord 8 0xB3) = some (.movi 3) := by decide
theorem test_fetch_word_grows_the_program :
    instrAt ({ State.reset with pc := 2 }.withFetchWord 8 0xE0) = some (.b 0) := by decide

/-! ### One step per instruction, from 95_test_vectors.md -/

theorem test_sar : (next? (exec (.sar 5) (start 3 []))).map (·.ra) = some 5 := by decide
theorem test_sar_8_fails : failsWith (.sar 8) (start 2 []) .sar 8 = true := by decide
theorem test_add_wraps : regAfter (.add 1) (start 0 [(0, 32767), (1, 1)]) 0 = some (-32768) := by decide
theorem test_add_same_register : regAfter (.add 2) (start 2 [(2, 21)]) 2 = some 42 := by decide
theorem test_mov : regAfter (.mov 0) (start 2 [(0, -32768)]) 2 = some (-32768) := by decide
theorem test_nand : regAfter (.nand 1) (start 0 [(0, 255), (1, 3855)]) 0 = some (-16) := by decide
theorem test_nand_extremes : regAfter (.nand 1) (start 0 [(0, -32768), (1, -1)]) 0 = some 32767 := by decide
theorem test_sub_wraps : regAfter (.sub 1) (start 0 [(0, -32768), (1, 1)]) 0 = some 32767 := by decide
theorem test_sub_direction : regAfter (.sub 1) (start 0 [(0, 5), (1, 7)]) 0 = some (-2) := by decide
theorem test_mlt_wraps : regAfter (.mlt 1) (start 0 [(0, 182), (1, 182)]) 0 = some (-32412) := by decide
theorem test_mlt_signs : regAfter (.mlt 1) (start 0 [(0, -3), (1, 7)]) 0 = some (-21) := by decide
theorem test_sll_into_sign : regAfter (.sll 1) (start 0 [(0, 1), (1, 15)]) 0 = some (-32768) := by decide
theorem test_sll_by_large : regAfter (.sll 1) (start 0 [(0, -1), (1, 32767)]) 0 = some 0 := by decide +kernel
theorem test_srl_rounds_down : regAfter (.srl 1) (start 0 [(0, -5), (1, 1)]) 0 = some (-3) := by decide
theorem test_srl_negative_amount_fails :
    failsWith (.srl 1) (start 0 [(1, -32768)]) .srl 1 = true := by decide
theorem test_load :
    regAfter (.load 1) ((start 4 [(1, 2)]).setMem [(2, -2)]) 4 = some (-2) := by decide
theorem test_load_128_fails : failsWith (.load 1) (start 0 [(1, 128)]) .load 1 = true := by decide
theorem test_stor : (next? (exec (.stor 2) (start 0 [(0, 20), (2, 4)]))).map (·.mem) = some [(4, 20)] := by decide
theorem test_stor_zero_unlists :
    (next? (exec (.stor 2) ((start 0 [(2, 4)]).setMem [(4, 20)]))).map (·.mem) = some [] := by decide
theorem test_bslt_signed_taken :
    (next? (exec (.bslt 1) { start 0 [(0, -1)] with rp := 4 })).map (·.pc) = some 5 := by decide
theorem test_bslt_equal_not_taken :
    (next? (exec (.bslt 2) { start 1 [(1, 4), (2, 4)] with rp := 9, pc := 16 })).map (·.pc) = some 17 := by decide
theorem test_spc_negative :
    (next? (exec (.spc 0) { start 0 [(0, -4)] with pc := 2 })).map (·.rp) = some (-2) := by decide
theorem test_spc_does_not_wrap : (next? (exec (.spc 7) (start 0 [(7, 32767)]))).map (·.rp) = some 32777 := by decide
theorem test_movi_table :
    (List.range 12).map (fun f => regAfter (.movi (BitVec.ofNat 4 f)) (start 1 []) 1) =
      [0, 1, 2, 3, -4, -3, -2, -1, 0, 1, 2, 3].map some := by decide +kernel
theorem test_movi_12_fails : failsWith (.movi 12) (start 0 [(0, 9)]) .movi 12 = true := by decide
theorem test_addi_wraps : regAfter (.addi 3) (start 0 [(0, 32767)]) 0 = some (-32766) := by decide
theorem test_addi_alias_10 : regAfter (.addi 10) (start 1 [(1, 5)]) 1 = some 7 := by decide
theorem test_b : (next? (exec (.b 9) { start 0 [] with rp := 1, pc := 3 })).map (·.pc) = some 2 := by decide
theorem test_b_to_minus_1 : (next? (exec (.b 0) { start 0 [] with rp := -2, pc := 3 })).map (·.pc) = some (-1) := by decide
theorem test_stop :
    (next? (exec (.stop 7) { start 0 [] with pc := 5, count := 5 })).map (fun t => (t.status, t.pc, t.count)) =
      some (.haltedNormal .stop, 5, 5) := by decide

/-! ### The loop and the host interface, from 95_test_vectors.md -/

theorem test_empty_program : next? (step State.reset) = some (haltedEndOfProgram State.reset) := by decide
theorem test_ceiling :
    (next? (step { withProg [0x00] with count := 1024 })).map (fun t => (t.status, t.count, t.pc)) =
      some (.haltedError .instructionCountExceeded, 1025, 1) := by decide
theorem test_stop_at_ceiling :
    (next? (step { withProg [0xF0] with count := 1024 })).map (fun t => (t.status, t.count)) =
      some (.haltedNormal .stop, 1024) := by decide
theorem test_fail_at_ceiling :
    (next? (step { withProg [0x08] with count := 1024 })).map (fun t => (t.status, t.count)) =
      some (.haltedError (.operandOutOfRange .sar 8), 1024) := by decide
theorem test_missing_opcode_raises_decode_failure :
    (next? (step { withProg [0x10] with opcodeMap := [.sar] })).map (·.status) =
      some (.haltedError (.decodeFailure 1)) := by decide
theorem test_trace_record :
    (next? (exec (.movi 3) { start 0 [] with pc := 1, debug := true })).map (fun t =>
      t.trace.map fun r => (r.mnemonic, r.operand, r.pc)) = some [(.movi, some 3, 2)] := by decide
theorem test_trace_of_b_has_no_operand :
    (next? (exec (.b 5) { start 0 [] with pc := 3, rp := 1, debug := true })).map (fun t =>
      t.trace.map fun r => (r.mnemonic, r.operand, r.pc)) = some [(.b, none, 2)] := by decide
/-- P4: `err_mnemonic = 0xB`, `err_operand = 0xC` after `MOVI f=12`. -/
theorem test_error_outputs :
    (next? (exec (.movi 12) (start 0 []))).map (fun t =>
      ((outputs t).statusCode, (outputs t).errMnemonic, (outputs t).errOperand)) = some (4, 0xB, 0xC) := by decide
theorem test_trace_port :
    (next? (exec (.movi 3) { start 0 [] with debug := true })).map (fun t =>
      (tracePort { start 0 [] with debug := true } t).record.map (·.op)) = some (some 0xB) := by decide
/-- R46: a step that emits no trace line leaves `trace_valid` at 0. -/
theorem test_trace_port_idle :
    (next? (exec (.stop 0) { start 0 [] with debug := true })).map (fun t =>
      (tracePort { start 0 [] with debug := true } t).valid) = some false := by decide
/-- R44: an edge with `rst` low copies the loader's report too, in either direction. -/
theorem test_loader_report_is_copied_without_reset :
    [true, false].map (fun b =>
      (next? (clockEdge Config.resetValues
        { bootInput Launch.empty 0 0 with rst := false, hmemWe := false, memImageMalformed := b }
        (driveLoaderReport (!b) State.reset))).map fun t => (outputs t).memImageMalformed) = [some true, some false] := by
  decide
theorem test_image_of_3_values_is_malformed :
    imageMalformed [1, 2, 3] = true ∧ imageBadValue? [1, 2, 3] = none := by decide
/-- R244: the first values outside the range at either end, in an image of another length, and the last inside it. -/
theorem test_image_values_outside_16_bits :
    imageBadValue? [-32768, 32767] = none ∧ imageBadValue? [1, 32768] = some 32768 ∧
    imageBadValue? [-32769] = some (-32769) := by decide

/-! ### Witnesses: the hypotheses of the statements can be met -/

/-- A legal opcode map other than the default one. -/
def otherMap : OpcodeMap := .sar :: .mov :: .add :: defaultOpcodeMap.drop 3

theorem witness_legal_maps : defaultOpcodeMap.legal ∧ otherMap.legal := by decide
theorem witness_ImmediateFieldTable : immediate? 12 = none := by decide
theorem witness_CanonicalEncodingOfAssembly :
    Mnemonic.operandClass .add = .registerOperand ∧ Mnemonic.operandClass .sll = .shift ∧
    Mnemonic.operandClass .load = .memoryOperand ∧ Mnemonic.operandClass .movi = .immediate ∧
    Mnemonic.operandClass .b = .control := by decide
theorem witness_register_field : (7 : Field).toNat = (7 : Fin 8).val ∧ (0 : Field).toNat = (0 : Fin 8).val := by decide
theorem witness_failing_register_field : (8 : Field).toNat > 7 := by decide
theorem witness_shift_amounts :
    (1 : Field).toNat = (1 : Fin 8).val ∧ 0 ≤ ((start 0 []).reg 1).toInt ∧
    16 ≤ ((start 0 [(1, 16)]).reg 1).toInt ∧ ((start 0 [(1, -1)]).reg 1).toInt < 0 := by decide
theorem witness_data_addresses :
    State.reset.mem = [] ∧ (1 : Field).toNat = (1 : Fin 8).val ∧
    ((start 0 []).reg 1).toInt = 0 ∧ ((start 0 [(1, 127)]).reg 1).toInt = 127 ∧
    ((start 0 [(1, -1)]).reg 1).toInt < 0 ∧ 127 < ((start 0 [(1, 128)]).reg 1).toInt := by decide
theorem witness_StorWritesOneCell : (start 0 [(1, 127)]).mem.wf := Memory.wf_nil
theorem witness_immediate_fields : (11 : Field).toNat ≤ 11 ∧ (0 : Field).toNat ≤ 11 ∧ (12 : Field).toNat ≥ 12 := by decide
theorem witness_SarSetsTheActiveRegister :
    (next? (run 1 (withProg [0xB3]))).isSome = true ∧ instrAt (withProg [0xB3]) = some (.movi 3) := by decide
theorem witness_BsltBranchesWhenSignedLess :
    ((start 0 [(1, 1)]).reg 0).toInt < ((start 0 [(1, 1)]).reg 1).toInt ∧
    (next? (exec (.bslt 1) (start 0 [(1, 1)]))).map (·.status) = some .running ∧
    ((start 0 [(1, 1)]).prog.length : Int) ≤ (start 0 [(1, 1)]).rp + 1 := by decide
theorem witness_SpcSetsTheProgramRegister :
    (next? (exec (.spc 1) (start 0 []))).map (·.rp) = some 10 ∧
    ({ start 0 [] with rp := 10 } : State).rp = 10 ∧ (next? (exec (.b 0) { start 0 [] with rp := 10 })).isSome = true := by
  decide
theorem witness_BranchLandsAfterTheProgramRegister :
    (next? (exec (.b 0) { start 0 [] with rp := -2 })).map (·.status) = some .running ∧ (-2 : Int) + 1 < 0 := by decide
theorem witness_StepRunsTheDecodedInstruction :
    (withProg [0xB3]).status = .running ∧ 0 ≤ (withProg [0xB3]).pc ∧
    (withProg [0xB3]).prog[(withProg [0xB3]).pc.toNat]? = some 0xB3 ∧
    decode (withProg [0xB3]).opcodeMap 0xB3 = .ok (.movi 3) := ⟨rfl, by decide, rfl, rfl⟩
theorem witness_HaltedStatusesAreAbsorbing : (haltedEndOfProgram State.reset).status ≠ .running := by decide
theorem witness_PcOutsideTheProgramHaltsNormally :
    State.reset.status = .running ∧ (State.reset.prog.length : Int) ≤ State.reset.pc ∧
    ({ State.reset with pc := -1 } : State).pc < 0 := by decide
theorem witness_OperandChecksDecideFailure :
    operandFails (.sar 8) State.reset ∧ ¬ operandFails (.movi 11) State.reset ∧
    Instr.mnemonic (.movi 11) ≠ .stop ∧ State.reset.status = .running := by
  simp [operandFails, Instr.mnemonic, State.reset]
theorem witness_OperandOutOfRange_step :
    (next? (step (withProg [0x08]))).map (·.status) = some (.haltedError (.operandOutOfRange .sar 8)) := by decide
theorem witness_CeilingHaltsAfterTheCommit :
    (next? (exec (.movi 1) { withProg [] with count := 1023 })).map (·.count) = some 1024 := by decide
theorem witness_OneHaltCauseByPriority :
    instrAt { withProg [0xF0] with count := 1024 } = some (.stop 0) ∧
    instrAt { withProg [0x08] with count := 1024 } = some (.sar 8) ∧
    instrAt { withProg [0x00] with count := 1024 } = some (.sar 0) := by decide
theorem witness_EveryRunHaltsWithin1025Steps :
    State.reset.status = .running ∧ State.reset.count = 0 ∧ (next? (step State.reset)).isSome = true := by decide
theorem witness_TraceRecordsCommittedStepsOnly :
    (next? (step { withProg [0xB3] with debug := true })).map (fun t => (t.count, t.trace.length)) = some (1, 1) ∧
    (next? (step (withProg [0xB3]))).map (fun t => (t.count, t.trace.length)) = some (1, 0) := by decide
theorem witness_runs : (next? (run 2 (withProg [0xB3, 0xF0]))).map (·.status) = some (.haltedNormal .stop) := by decide
theorem witness_StagedBranchLandsAtTheChosenAddress :
    let s := { start 0 [(1, 2)] with pc := 0, prog := [0xD1, 0xE0] }
    s.status = .running ∧ s.count + 2 ≤ 1024 ∧ 0 ≤ s.pc ∧ s.prog[s.pc.toNat]? = some 0xD1 ∧
    s.prog[s.pc.toNat + 1]? = some 0xE0 ∧ decode s.opcodeMap 0xD1 = .ok (.spc 1) ∧
    (1 : Field).toNat = (1 : Fin 8).val ∧ decode s.opcodeMap 0xE0 = .ok (.b 0) ∧ (s.reg 1).toInt = 3 - 1 - s.pc :=
  ⟨rfl, by decide, by decide, rfl, rfl, rfl, rfl, rfl, by decide⟩
theorem witness_StagedBranch_taken_bslt :
    let s := { start 0 [(1, 2)] with pc := 0, prog := [0xD1, 0xA1] }
    decode s.opcodeMap 0xA1 = .ok (.bslt 1) ∧ (s.reg s.ra).toInt < (s.reg 1).toInt := ⟨rfl, by decide⟩
theorem witness_writers :
    (next? (exec (.add 1) (start 0 [(1, 1)]))).map (fun t => decide (t.reg 0 ≠ (start 0 [(1, 1)]).reg 0)) = some true ∧
    (next? (exec (.sar 1) (start 0 []))).map (fun t => decide (t.ra ≠ 0)) = some true ∧
    (next? (exec (.spc 1) (start 0 []))).map (fun t => decide (t.rp ≠ 0)) = some true := by decide
theorem witness_MemoryKeepsItsCellsBetweenStores :
    (next? (run 1 (withProg [0x61]))).isSome = true ∧ instrAt (withProg [0x61]) = some (.load 1) := by decide
theorem witness_invariants :
    State.reset.mem.wf ∧ State.reset.opcodeMap.legal ∧ State.reset.prog.length ≤ Config.maxProgramLength ∧
    State.reset.countOk ∧ State.reset.fits32 ∧ (next? (step (withProg [0x71]))).isSome = true :=
  ⟨Memory.wf_nil, by decide, by decide, by decide, by decide, by decide⟩
theorem witness_fits32_boundary :
    ({ State.reset with pc := 2 ^ 31 - 1, rp := 2 ^ 31 - 2 } : State).fits32 ∧
    ({ State.reset with pc := -(2 ^ 31), rp := -(2 ^ 31) } : State).fits32 := by decide
theorem witness_countOk_at_the_ceiling :
    ({ State.reset with count := 1025, status := .haltedError .instructionCountExceeded } : State).countOk := by decide
theorem witness_DecodeFailureIsNeverRaised : State.reset.noDecodeFailure := fun _ h => by cases h
theorem witness_launch : launch Launch.empty = .next State.reset := launch_empty
theorem witness_LaunchLoadsTheImageOrZeros :
    Launch.empty.program.length ≤ 2 ^ 24 ∧ Launch.empty.opcodeMap.legal ∧ Launch.empty.image.length = 128 ∧
    (∀ v ∈ Launch.empty.image, -32768 ≤ v ∧ v ≤ 32767) ∧ ({ Launch.empty with image := [] }).image.length ≠ 128 := by
  decide +kernel
theorem witness_LaunchRefusesValuesOutsideTheWidth :
    let l := { Launch.empty with image := 32768 :: List.replicate 127 0 }
    l.program.length ≤ 2 ^ 24 ∧ l.opcodeMap.legal ∧ l.image.length = 128 ∧ (∃ v ∈ l.image, v < -32768 ∨ 32767 < v) :=
  ⟨by decide, by decide, by decide +kernel, 32768, List.mem_cons_self, by decide⟩
theorem witness_LaunchRefuses_an_image_of_another_length :
    let l := { Launch.empty with image := [1, -32769] }
    l.program.length ≤ 2 ^ 24 ∧ l.opcodeMap.legal ∧ l.image.length ≠ 128 ∧ (∃ v ∈ l.image, v < -32768 ∨ 32767 < v) :=
  ⟨by decide, by decide, by decide, -32769, by decide, by decide⟩
theorem witness_BootThroughTheHostPortIsTheLaunch : (haltedEndOfProgram State.reset).mem.wf := Memory.wf_nil
theorem witness_ResetStartsANewRun :
    let inp := bootInput Launch.empty 127 5
    inp.rst = true ∧ inp.hmemWe = true ∧ inp.program.length ≤ 2 ^ 24 ∧ inp.opcodeMap.legal ∧ State.reset.mem.wf ∧
    (haltedEndOfProgram State.reset).halted :=
  ⟨rfl, rfl, by decide, by decide, Memory.wf_nil, by decide⟩
theorem witness_reset_without_a_write_and_no_reset :
    ({ bootInput Launch.empty 0 5 with hmemWe := false }).hmemWe = false ∧
    (next? (clockEdge Config.resetValues { bootInput Launch.empty 0 5 with rst := false, hmemWe := false }
      (haltedEndOfProgram State.reset))).isSome = true := by decide
theorem witness_HostPortOpensOnlyWhenHaltedOrInReset :
    State.reset.status = .running ∧ (haltedEndOfProgram State.reset).halted ∧
    ({ bootInput Launch.empty 0 5 with rst := false }).rst = false ∧
    ({ bootInput Launch.empty 0 5 with rst := false }).hmemWe = true := by decide
theorem witness_LoaderReportIsCopiedWithoutOtherEffect :
    (next? (launch Launch.empty)).isSome = true ∧ (next? (launch { Launch.empty with image := [1, 2, 3] })).isSome = true ∧
    (next? (clockEdge Config.resetValues (bootInput Launch.empty 127 5) State.reset)).isSome = true ∧
    (next? (clockEdge Config.resetValues { bootInput Launch.empty 0 5 with rst := false, hmemWe := false }
      State.reset)).isSome = true ∧ (next? (run 2 State.reset)).isSome = true := by decide +kernel
theorem witness_OutputsShowTheState :
    (haltedOutOfRange .movi 12 State.reset).status = .haltedError (.operandOutOfRange .movi 12) ∧
    (haltedOutOfRange .movi 12 State.reset).opcodeMap.legal := by decide
theorem witness_other_statuses :
    (haltNormally .stop State.reset).status = .haltedNormal .stop ∧
    (raise .instructionCountExceeded State.reset).status = .haltedError .instructionCountExceeded ∧
    (raise (.decodeFailure 1) State.reset).status = .haltedError (.decodeFailure 1) := by decide

end Sys2Proof.Machine.Tests
end

section
/-! PROOFS, support. What an instruction or a step that answers a next state has done, said once, and the induction
over runs. Every invariant and every "who writes what" statement goes through these. -/

namespace Sys2Proof.Machine

/-- `t` is `s` halted for a cause other than the ceiling: nothing but `status` differs, and nothing was committed. -/
def HaltsUncommitted (s t : State) : Prop :=
  ∃ st : Status, st ≠ .running ∧ st ≠ .haltedError .instructionCountExceeded ∧ t = { s with status := st }

theorem haltsUncommitted_fail (m : Mnemonic) (f : Field) (s : State) :
    HaltsUncommitted s (raise (.operandOutOfRange m f) s) := ⟨_, by simp, by simp, rfl⟩

theorem haltsUncommitted_decodeFailure (op : Field) (s : State) :
    HaltsUncommitted s (raise (.decodeFailure op) s) := ⟨_, by simp, by simp, rfl⟩

theorem haltsUncommitted_normal (c : NormalCause) (s : State) : HaltsUncommitted s (haltNormally c s) :=
  ⟨_, by simp, by simp, rfl⟩

/-- `t` is what the loop makes of the writes `w` of an instruction of mnemonic `m` that started in `s`. -/
def Commits (m : Mnemonic) (s t : State) : Prop :=
  ∃ (f : Field) (b : Bool) (w : State), HandlerLeaves m s w ∧ t = retire m f b w

/-- An instruction that answers a state has halted the run uncommitted or has committed. -/
theorem exec_cases {i : Instr} {s t : State} (h : exec i s = .next t) :
    HaltsUncommitted s t ∨ Commits i.mnemonic s t := by
  cases exec_does i s with
  | fails h' _ =>
    cases h.symm.trans h'
    exact .inl (haltsUncommitted_fail _ _ s)
  | stops h' _ =>
    cases h.symm.trans h'
    exact .inl (haltsUncommitted_normal _ s)
  | commits w b h' _ hw =>
    cases h.symm.trans h'
    exact .inr ⟨_, b, w, hw, rfl⟩

/-- A step that answers a state finds the core halted and keeps it, or halts it uncommitted, or commits an instruction
that it fetched within the program (R100 to R109). -/
theorem step_cases {s t : State} (h : step s = .next t) :
    (s.halted ∧ t = s) ∨ (s.status = .running ∧ HaltsUncommitted s t) ∨
    (s.status = .running ∧ 0 ≤ s.pc ∧ s.pc < s.prog.length ∧ ∃ m, Commits m s t) := by
  rcases hn : nextInstr s with u | i
  · obtain rfl : u = t := by simpa [step_of_error hn] using h
    rcases nextInstr_eq_error hn with ⟨hh, rfl⟩ | ⟨hr, -, rfl⟩ | ⟨hr, w, op, -, -, rfl⟩
    · exact .inl ⟨hh, rfl⟩
    · exact .inr (.inl ⟨hr, haltsUncommitted_normal _ s⟩)
    · exact .inr (.inl ⟨hr, haltsUncommitted_decodeFailure op s⟩)
  · obtain ⟨hr, w, h0, hw, -⟩ := nextInstr_eq_ok.1 hn
    have hlt := (List.getElem?_eq_some_iff.1 hw).1
    rw [step_of_ok hn] at h
    rcases exec_cases h with hu | hc
    · exact .inr (.inl ⟨hr, hu⟩)
    · exact .inr (.inr ⟨hr, h0, by omega, _, hc⟩)

/-- A committing instruction leaves the configuration as it is (R35). -/
theorem Commits.sameConfig {m : Mnemonic} {s t : State} (h : Commits m s t) : sameConfig s t := by
  obtain ⟨f, b, w, hw, rfl⟩ := h
  simpa only [Machine.sameConfig, retire_prog, retire_debug, retire_opcodeMap, retire_memImageMalformed] using hw.config

theorem step_sameConfig {s t : State} (h : step s = .next t) : sameConfig s t := by
  rcases step_cases h with ⟨-, rfl⟩ | ⟨-, st, -, -, rfl⟩ | ⟨-, -, -, m, hc⟩
  · exact ⟨rfl, rfl, rfl, rfl⟩
  · exact ⟨rfl, rfl, rfl, rfl⟩
  · exact hc.sameConfig

/-- A committing instruction keeps the memory canonical: it leaves it or writes one cell of it (R21, R181). -/
theorem Commits.mem_wf {m : Mnemonic} {s t : State} (h : Commits m s t) (hs : s.mem.wf) : t.mem.wf := by
  obtain ⟨f, b, w, hw, rfl⟩ := h
  rw [retire_mem]
  rcases hw.mem with e | ⟨-, a, v, hv⟩
  · rwa [e]
  · exact (memWrite_spec hv hs).1

theorem step_mem_wf {s t : State} (h : step s = .next t) (hs : s.mem.wf) : t.mem.wf := by
  rcases step_cases h with ⟨-, rfl⟩ | ⟨-, st, -, -, rfl⟩ | ⟨-, -, -, m, hc⟩
  · exact hs
  · exact hs
  · exact hc.mem_wf hs

/-! ### Runs -/

/-- A run of `k + 1` steps is a step and a run of `k`. -/
theorem run_succ_eq_next {k : Nat} {s t : State} :
    run (k + 1) s = .next t ↔ ∃ u, step s = .next u ∧ run k u = .next t := by
  rw [run]
  cases step s with
  | next u => simp
  | fault e => simp
  | refused e => simp

/-- What every step keeps, every run keeps. -/
theorem run_keeps {P : State → Prop} (hstep : ∀ u v, P u → step u = .next v → P v) {k : Nat} {s t : State}
    (hs : P s) (h : run k s = .next t) : P t := by
  induction k generalizing s with
  | zero => cases h; exact hs
  | succ k ih =>
    obtain ⟨u, hu, hk⟩ := run_succ_eq_next.1 h
    exact ih (hstep s u hs hu) hk

end Sys2Proof.Machine
end

section
/-! PROOFS, support. What an instruction reads: the registers, `Ra`, `Rp`, `pc` and the data memory decide its whole
effect, and the rest of the state passes through. -/

namespace Sys2Proof.Machine

/-- The state with the four things that a handler can write replaced. -/
def State.withWrites (s : State) (regs : Vector Word 8) (ra : Fin 8) (rp : Int) (mem : Memory) : State :=
  { s with regs := regs, ra := ra, rp := rp, mem := mem }

/-- Two states agree on all that a handler reads. -/
structure SameInputs (s u : State) : Prop where
  regs : u.regs = s.regs
  ra : u.ra = s.ra
  rp : u.rp = s.rp
  pc : u.pc = s.pc
  mem : u.mem = s.mem

/-- The outcomes `o` in `s` and `o'` in `u` of one instruction go the same way, and a commit makes the same writes. -/
inductive ActsAlike (m : Mnemonic) (f : Field) (s u : State) (o o' : Host.Outcome State Fault Refusal) : Prop where
  | fails (h : o = .next (raise (.operandOutOfRange m f) s)) (h' : o' = .next (raise (.operandOutOfRange m f) u))
  | stops (h : o = .next (haltNormally .stop s)) (h' : o' = .next (haltNormally .stop u))
  | commits (regs : Vector Word 8) (ra : Fin 8) (rp : Int) (mem : Memory) (b : Bool)
      (h : o = .next (retire m f b (s.withWrites regs ra rp mem)))
      (h' : o' = .next (retire m f b (u.withWrites regs ra rp mem)))
  | faults (e : Fault) (h : o = .fault e) (h' : o' = .fault e)

section
variable {m : Mnemonic} {f : Field} {s u : State}

theorem withRegister_actsAlike {k k' : Fin 8 → Host.Outcome State Fault Refusal}
    (h : ∀ r, ActsAlike m f s u (k r) (k' r)) :
    ActsAlike m f s u (withRegister m f s k) (withRegister m f u k') := by
  rcases registerIndex?_cases f with ⟨r, hr, -⟩ | ⟨hf, -⟩
  · rw [withRegister_ok hr, withRegister_ok hr]
    exact h r
  · exact .fails (withRegister_fail hf) (withRegister_fail hf)

theorem withShiftAmount_actsAlike {k k' : Nat → Host.Outcome State Fault Refusal} (hs : SameInputs s u)
    (h : ∀ n, ActsAlike m f s u (k n) (k' n)) :
    ActsAlike m f s u (withShiftAmount m f s k) (withShiftAmount m f u k') :=
  withRegister_actsAlike fun r => by
    rw [State.reg_congr hs.regs r]
    cases shiftAmount? (s.reg r) with
    | some n => exact h n
    | none => exact .fails rfl rfl

theorem withDataAddress_actsAlike {k k' : Int → Host.Outcome State Fault Refusal} (hs : SameInputs s u)
    (h : ∀ a, ActsAlike m f s u (k a) (k' a)) :
    ActsAlike m f s u (withDataAddress m f s k) (withDataAddress m f u k') :=
  withRegister_actsAlike fun r => by
    rw [State.reg_congr hs.regs r]
    cases dataAddress? (s.reg r) with
    | some a => exact h a
    | none => exact .fails rfl rfl

theorem withImmediate_actsAlike {k k' : Int → Host.Outcome State Fault Refusal}
    (h : ∀ imm, ActsAlike m f s u (k imm) (k' imm)) :
    ActsAlike m f s u (withImmediate m f s k) (withImmediate m f u k') := by
  cases hi : immediate? f with
  | some imm =>
    rw [withImmediate_ok hi, withImmediate_ok hi]
    exact h imm
  | none => exact .fails (withImmediate_fail hi) (withImmediate_fail hi)

end

/-- An instruction acts alike in two states that agree on what a handler reads. -/
theorem exec_actsAlike (i : Instr) {s u : State} (hs : SameInputs s u) :
    ActsAlike i.mnemonic i.field s u (exec i s) (exec i u) := by
  have hs' := hs
  obtain ⟨regs, ra, rp, pc, count, status, mem, prog, debug, om, rep, trace⟩ := s
  obtain ⟨regs', ra', rp', pc', count', status', mem', prog', debug', om', rep', trace'⟩ := u
  obtain ⟨rfl, rfl, rfl, rfl, rfl⟩ := hs'
  cases i with
  | sar f => exact withRegister_actsAlike fun r => .commits _ _ _ _ false rfl rfl
  | add f => exact withRegister_actsAlike fun r => .commits _ _ _ _ false rfl rfl
  | mov f => exact withRegister_actsAlike fun r => .commits _ _ _ _ false rfl rfl
  | nand f => exact withRegister_actsAlike fun r => .commits _ _ _ _ false rfl rfl
  | sub f => exact withRegister_actsAlike fun r => .commits _ _ _ _ false rfl rfl
  | mlt f => exact withRegister_actsAlike fun r => .commits _ _ _ _ false rfl rfl
  | bslt f => exact withRegister_actsAlike fun r => .commits _ _ _ _ _ rfl rfl
  | spc f => exact withRegister_actsAlike fun r => .commits _ _ _ _ false rfl rfl
  | sll f => exact withShiftAmount_actsAlike hs fun n => .commits _ _ _ _ false rfl rfl
  | srl f => exact withShiftAmount_actsAlike hs fun n => .commits _ _ _ _ false rfl rfl
  | load f =>
    refine withDataAddress_actsAlike hs fun a => ?_
    dsimp only
    cases memRead mem' a with
    | ok v => exact .commits _ _ _ _ false rfl rfl
    | error e => exact .faults e rfl rfl
  | stor f =>
    refine withDataAddress_actsAlike hs fun a => ?_
    dsimp only [State.acc, State.reg]
    cases memWrite mem' a regs'[ra'] with
    | ok n => exact .commits _ _ _ _ false rfl rfl
    | error e => exact .faults e rfl rfl
  | movi f => exact withImmediate_actsAlike fun imm => .commits _ _ _ _ false rfl rfl
  | addi f => exact withImmediate_actsAlike fun imm => .commits _ _ _ _ false rfl rfl
  | b f => exact .commits _ _ _ _ true rfl rfl
  | stop f => exact .stops rfl rfl

end Sys2Proof.Machine
end

section
/-! PROOFS, support. The level of the loader's report passes through every operation of a step (R44, R214). -/

namespace Sys2Proof.Machine

theorem driveLoaderReport_sameInputs (b : Bool) (s : State) : SameInputs s (driveLoaderReport b s) :=
  ⟨rfl, rfl, rfl, rfl, rfl⟩

theorem emitTrace_driveLoaderReport (m : Mnemonic) (f : Field) (b : Bool) (s : State) :
    emitTrace m f (driveLoaderReport b s) = driveLoaderReport b (emitTrace m f s) := by
  cases hd : s.debug with
  | false => simp [emitTrace, hd]
  | true => simp only [emitTrace, driveLoaderReport_debug, hd, if_true]; rfl

theorem applyCeiling_driveLoaderReport (b : Bool) (s : State) :
    applyCeiling (driveLoaderReport b s) = driveLoaderReport b (applyCeiling s) := by
  cases hc : overCeiling s.count with
  | false => simp [applyCeiling, hc]
  | true => simp only [applyCeiling, driveLoaderReport_count, hc, if_true]; rfl

theorem retire_driveLoaderReport (m : Mnemonic) (f : Field) (br b : Bool) (s : State) :
    retire m f br (driveLoaderReport b s) = driveLoaderReport b (retire m f br s) := by
  rw [retire, retire, ← applyCeiling_driveLoaderReport, ← emitTrace_driveLoaderReport]
  rfl

theorem exec_driveLoaderReport {i : Instr} {s t : State} (b : Bool) (h : exec i s = .next t) :
    exec i (driveLoaderReport b s) = .next (driveLoaderReport b t) := by
  cases exec_actsAlike i (driveLoaderReport_sameInputs b s) with
  | fails h₁ h₂ => cases h.symm.trans h₁; exact h₂
  | stops h₁ h₂ => cases h.symm.trans h₁; exact h₂
  | commits regs ra rp mem br h₁ h₂ =>
    cases h.symm.trans h₁
    rw [h₂, ← retire_driveLoaderReport]
    rfl
  | faults e h₁ _ => cases h.symm.trans h₁

/-- What a step does before dispatch does not look at the report. -/
theorem nextInstr_driveLoaderReport (b : Bool) (s : State) :
    nextInstr (driveLoaderReport b s) = (nextInstr s).mapError (driveLoaderReport b) := by
  rcases hn : nextInstr s with u | i
  · rcases nextInstr_eq_error hn with ⟨hh, rfl⟩ | ⟨hr, hf, rfl⟩ | ⟨hr, w, op, hf, hd, rfl⟩
    · exact nextInstr_halted hh
    · exact nextInstr_endOfProgram hr hf
    · have hf' : fetch (driveLoaderReport b s) = some w := hf
      simp only [nextInstr, driveLoaderReport_status, hr, if_true, hf', driveLoaderReport_opcodeMap, hd]
      rfl
  · have hs := nextInstr_eq_ok.1 hn
    exact nextInstr_eq_ok.2 hs

theorem step_driveLoaderReport {s t : State} (b : Bool) (h : step s = .next t) :
    step (driveLoaderReport b s) = .next (driveLoaderReport b t) := by
  have hd := nextInstr_driveLoaderReport b s
  rcases hn : nextInstr s with u | i
  · rw [hn] at hd
    cases h.symm.trans (step_of_error hn)
    exact step_of_error hd
  · rw [hn] at hd
    rw [step_of_ok hn] at h
    exact (step_of_ok hd).trans (exec_driveLoaderReport b h)

theorem run_driveLoaderReport {k : Nat} {s t : State} (b : Bool) (h : run k s = .next t) :
    run k (driveLoaderReport b s) = .next (driveLoaderReport b t) := by
  induction k generalizing s with
  | zero => cases h; rfl
  | succ k ih =>
    obtain ⟨u, hu, hk⟩ := run_succ_eq_next.1 h
    exact run_succ_eq_next.2 ⟨_, step_driveLoaderReport b hu, ih hk⟩

/-- Every clock edge shows the level it drives: a reset edge copies it and a step keeps it (R44). -/
theorem clockEdge_memImageMalformed {rv : ResetValues} {inp : Inputs} {s t : State}
    (h : clockEdge rv inp s = .next t) : t.memImageMalformed = inp.memImageMalformed := by
  rcases clockEdge_cases h with ⟨-, -, -, rfl⟩ | ⟨-, -, hstep⟩
  · rfl
  · obtain ⟨-, -, -, hrep⟩ := step_sameConfig hstep
    exact hrep

/-- An edge with `rst` low and no host write is a step with the report that the edge drives. -/
theorem clockEdge_step {rv : ResetValues} {inp : Inputs} {s : State} (hr : inp.rst = false)
    (hw : inp.hmemWe = false) : clockEdge rv inp s = step (driveLoaderReport inp.memImageMalformed s) := by
  simp [clockEdge, hr, hw]

theorem clockEdge_driveLoaderReport {rv : ResetValues} {inp : Inputs} {s t : State} (b : Bool)
    (h : clockEdge rv inp s = .next t) :
    clockEdge rv { inp with memImageMalformed := b } s = .next (driveLoaderReport b t) := by
  rcases clockEdge_cases h with ⟨hr, hp, hm, rfl⟩ | ⟨hr, hw, hstep⟩
  · exact clockEdge_reset (inp := { inp with memImageMalformed := b }) hr hp hm
  · have hedge := clockEdge_step (rv := rv) (inp := { inp with memImageMalformed := b }) (s := s) hr hw
    have hs := step_driveLoaderReport b hstep
    exact hedge.trans hs

end Sys2Proof.Machine
end

section
/-! PROOFS, support. A legal opcode map lists every mnemonic, so the opcode value of a mnemonic names it (R73). -/

namespace Sys2Proof

theorem mem_defaultOpcodeMap (m : Mnemonic) : m ∈ defaultOpcodeMap := by cases m <;> decide

/-- A legal map lists 16 different mnemonics, and there are no more. -/
theorem OpcodeMap.legal.mem {om : OpcodeMap} (h : om.legal) (m : Mnemonic) : m ∈ om := by
  obtain ⟨hlen, hnodup, -, -⟩ := h
  have hsub : om.Subperm defaultOpcodeMap := hnodup.subperm fun m _ => mem_defaultOpcodeMap m
  have hperm : om.Perm defaultOpcodeMap := hsub.perm_of_length_le (by rw [hlen]; decide)
  exact hperm.mem_iff.2 (mem_defaultOpcodeMap m)

theorem OpcodeMap.legal.getElem?_opcodeOf {om : OpcodeMap} (h : om.legal) (m : Mnemonic) :
    om[(opcodeOf om m).toNat]? = some m := by
  have hlt : om.idxOf m < om.length := List.idxOf_lt_length_iff.2 (h.mem m)
  obtain ⟨hlen, -, -, -⟩ := h
  have hval : (opcodeOf om m).toNat = om.idxOf m := by
    rw [opcodeOf, BitVec.toNat_ofNat, Nat.mod_eq_of_lt (by omega)]
  rw [hval, List.getElem?_eq_getElem hlt, List.getElem_idxOf hlt]

end Sys2Proof
end

section
/-! PROOFS, support. The words that a launch leaves in the data memory (R37). -/

namespace Sys2Proof.Machine

/-- The cells of a launch are the words loaded. -/
theorem memRead_launchState (l : Launch) (ws : List Word) {a : Nat} (ha : a < 128) :
    memRead (launchState l ws).mem a = .ok (ws.getD a 0#16) := by
  rw [memRead_of_range (by omega) (by omega), launchState_mem, Memory.read_ofWords]
  simp

theorem imageMalformed_eq_true {image : List Int} : imageMalformed image = true ↔ image.length ≠ 128 := by
  simp [imageMalformed]

end Sys2Proof.Machine
end

section
/-! PROOFS. The statements about the state: invariants, who writes what, reset, launch, host port and outputs. -/

namespace Sys2Proof.Machine

/-- Settles O40: the configuration is not written, and the one write to the memory is to a cell that exists. -/
theorem stepKeepsTheForm : Obligations.StepKeepsTheForm := by
  rintro s t ⟨hmem, hmap, hprog⟩ h
  obtain ⟨eprog, -, emap, -⟩ := step_sameConfig h
  exact ⟨step_mem_wf h hmem, emap ▸ hmap, eprog ▸ hprog⟩

/-- Settles O42: a committing step starts at a `pc` below `2^24`, so `pc + 1` and `pc + R[r]` are far from the bounds,
and a branch lands at `Rp + 1`, which `fits32` bounds. -/
theorem stepKeepsProgramCountersIn32Bits : Obligations.StepKeepsProgramCountersIn32Bits := by
  intro s t hlen hfits h
  rcases step_cases h with ⟨-, rfl⟩ | ⟨-, st, -, -, rfl⟩ | ⟨-, hpc0, hpc1, m, f, b, w, hw, rfl⟩
  · exact hfits
  · exact hfits
  · obtain ⟨hpcl, -, hrpl, hrpu⟩ := hfits
    have hrp : -(2 ^ 31) ≤ w.rp ∧ w.rp + 1 < 2 ^ 31 := by
      rcases hw.rp with e | ⟨-, v, e⟩
      · rw [e]; exact ⟨hrpl, hrpu⟩
      · have hv := toInt_range v
        omega
    have hpc : -(2 ^ 31) ≤ w.pc ∧ w.pc + 1 < 2 ^ 31 := by
      have e := hw.pc
      omega
    simp only [State.fits32, retire_pc, retire_rp]
    cases b with
    | true => simp only [if_true]; omega
    | false => simp only [Bool.false_eq_true, if_false]; omega

/-- Settles O35: the one general register a handler can write is the accumulator. -/
theorem onlyTheAccumulatorIsWritten : Obligations.OnlyTheAccumulatorIsWritten := by
  intro i s t h
  rcases exec_cases h with ⟨st, -, -, rfl⟩ | ⟨f, b, w, hw, rfl⟩
  · exact ⟨fun j _ => rfl, fun hne => absurd rfl hne⟩
  · rcases hw.regs with e | ⟨⟨v, rfl⟩, hm⟩
    · have hsame (j : Fin 8) : (retire i.mnemonic f b w).reg j = s.reg j := by
        rw [State.reg_retire, State.reg_congr e]
      exact ⟨fun j _ => hsame j, fun hne => absurd (hsame s.ra) hne⟩
    · refine ⟨fun j hj => ?_, fun _ => hm⟩
      rw [State.reg_retire, State.reg_setAcc_other s v hj]

/-- Settles O36: of what a handler leaves, `Ra` is written by `SAR` alone and `Rp` by `SPC` alone. -/
theorem onlySarWritesRaAndOnlySpcWritesRp : Obligations.OnlySarWritesRaAndOnlySpcWritesRp := by
  intro i s t h
  rcases exec_cases h with ⟨st, -, -, rfl⟩ | ⟨f, b, w, hw, rfl⟩
  · exact ⟨fun hne => absurd rfl hne, fun hne => absurd rfl hne⟩
  · rw [retire_ra, retire_rp]
    refine ⟨fun hne => ?_, fun hne => ?_⟩
    · exact hw.ra.resolve_left hne
    · obtain ⟨hm, -⟩ := hw.rp.resolve_left hne
      exact hm

/-- Settles O38, by induction on the number of steps. -/
theorem noStepWritesTheConfiguration : Obligations.NoStepWritesTheConfiguration := by
  intro k s t h
  refine run_keeps (P := sameConfig s) (fun u v hu hv => ?_) ⟨rfl, rfl, rfl, rfl⟩ h
  obtain ⟨p₁, d₁, o₁, r₁⟩ := hu
  obtain ⟨p₂, d₂, o₂, r₂⟩ := step_sameConfig hv
  exact ⟨p₂.trans p₁, d₂.trans d₁, o₂.trans o₁, r₂.trans r₁⟩

/-- Settles O41: a running state is below the ceiling's 1025, and the commit that reaches it halts for it. -/
theorem stepKeepsTheCountRule : Obligations.StepKeepsTheCountRule := by
  intro s t hs h
  have hrun (hr : s.status = .running) : s.count ≤ 1024 := by
    obtain ⟨hle, hiff⟩ := hs
    have hne : s.count ≠ 1025 := fun e => by simp [hiff.1 e] at hr
    omega
  rcases step_cases h with ⟨-, rfl⟩ | ⟨hr, st, -, hst, rfl⟩ | ⟨hr, -, -, m, f, b, w, hw, rfl⟩
  · exact hs
  · have hle := hrun hr
    exact ⟨by simp only; omega, fun e => absurd e (by simp only; omega), fun e => absurd e hst⟩
  · have hle := hrun hr
    simp only [State.countOk, retire_count, retire_status, hw.count, hw.status, hr]
    refine ⟨by omega, fun e => if_pos (by omega), fun e => ?_⟩
    by_contra hne
    rw [if_neg (by omega)] at e
    cases e

/-- Settles O46: the cells are the loaded words, and each value of the image survives its wrap to a cell. -/
theorem launchLoadsTheImageOrZeros : Obligations.LaunchLoadsTheImageOrZeros := by
  intro l hprog hmap himage
  have hload := loadImage_eq_ok.2 ⟨himage, rfl⟩
  refine ⟨_, launch_eq_next.2 ⟨_, hload, hprog, hmap, rfl⟩, rfl, rfl, rfl, rfl, rfl, fun hlen => ?_, fun hlen => ?_⟩
  · have hm : imageMalformed l.image = false := by simp [imageMalformed, hlen]
    refine ⟨hm, fun a ha => ⟨wrapW l.image[a], ?_, ?_⟩⟩
    · rw [memRead_launchState _ _ ha, hm]
      simp [hlen, ha]
    · obtain ⟨h0, h1⟩ := himage _ (List.getElem_mem (show a < l.image.length by omega))
      rw [wrapW_toInt_of_range h0 h1, List.getElem?_eq_getElem]
  · have hm : imageMalformed l.image = true := imageMalformed_eq_true.2 hlen
    refine ⟨hm, fun a ha => ?_⟩
    rw [memRead_launchState _ _ ha, hm]
    simp [ha]

/-- Settles O52: the report passes unread through every edge and every run. -/
theorem loaderReportIsCopiedWithoutOtherEffect : Obligations.LoaderReportIsCopiedWithoutOtherEffect := by
  refine ⟨fun l t h => ?_, fun b s => rfl, fun b s a => rfl, fun rv inp s t h => clockEdge_memImageMalformed h,
    fun rv inp s t b h => clockEdge_driveLoaderReport b h, fun k s t b h => run_driveLoaderReport b h⟩
  obtain ⟨ws, -, -, -, rfl⟩ := launch_eq_next.1 h
  exact imageMalformed_eq_true

/-- Settles O44. -/
theorem resetMeetsTheInvariants : Obligations.ResetMeetsTheInvariants :=
  ⟨⟨State.reset_mem_wf, by decide, by decide⟩, by decide, by decide, fun _ h => by cases h⟩

/-- Settles O45. -/
theorem resetLeavesTheInitialState : Obligations.ResetLeavesTheInitialState := by
  refine ⟨⟨rfl, rfl, rfl⟩, fun l t h => ?_⟩
  obtain ⟨ws, -, -, -, rfl⟩ := launch_eq_next.1 h
  exact ⟨rfl, rfl, rfl⟩

/-- Settles O50: the host's 7-bit address always names a cell that exists. -/
theorem hostPortOpensOnlyWhenHaltedOrInReset : Obligations.HostPortOpensOnlyWhenHaltedOrInReset := by
  refine ⟨fun s a hr => if_pos hr, fun s a hh => ⟨s.mem.read a.toNat, if_neg hh, ?_⟩, fun rv inp s hr hw => ?_⟩
  · have := a.isLt
    exact memRead_of_range (by omega) (by omega)
  · exact ⟨hostWriteRefusal s, by simp [clockEdge, hr, hw]⟩

/-- A failed operand shows its mnemonic's opcode value and its field on the error outputs. -/
theorem outputs_err_of_failed {s : State} {m : Mnemonic} {f : Field}
    (h : s.status = .haltedError (.operandOutOfRange m f)) :
    (outputs s).errMnemonic = opcodeOf s.opcodeMap m ∧ (outputs s).errOperand = f := by
  simp [outputs, errMnemonic, errOperand, h]

/-- A status other than a failed operand shows 0 on both error outputs. -/
theorem outputs_err_of_ne {s : State} (h : ∀ m f, s.status ≠ .haltedError (.operandOutOfRange m f)) :
    (outputs s).errMnemonic = 0 ∧ (outputs s).errOperand = 0 := by
  simp only [outputs]
  rcases hst : s.status with _ | c | (op | ⟨m, f⟩ | _)
  case haltedError.operandOutOfRange => exact absurd hst (h m f)
  all_goals exact ⟨rfl, rfl⟩

/-- Settles O51. -/
theorem outputsShowTheState : Obligations.OutputsShowTheState := by
  have code (s : State) : (outputs s).statusCode = statusCode s.status := rfl
  refine ⟨fun s => ⟨rfl, rfl, rfl, rfl, rfl⟩, fun s h => ?_, fun s h => ?_, fun s h => ?_, fun s op h => ?_,
    fun s h => ?_, fun s m f h => ?_, fun s h => outputs_err_of_ne h⟩
  · rw [code, h, statusCode]
  · rw [code, h, statusCode]
  · rw [code, h, statusCode]
  · rw [code, h, statusCode]
  · rw [code, h, statusCode]
  · obtain ⟨hm, hf⟩ := outputs_err_of_failed h
    refine ⟨by rw [code, h, statusCode], hf, fun hmap => ?_⟩
    rw [hm, hmap.getElem?_opcodeOf m]

end Sys2Proof.Machine
end

section
/-! PROOFS, support. Every instruction and step answers a state, and the memory is written by `STOR` alone. -/

namespace Sys2Proof.Machine

/-- Each of the three things an instruction can do answers a state: the class check stands before the access (R182). -/
theorem exec_answers (i : Instr) (s : State) : ∃ t, exec i s = .next t := by
  cases exec_does i s with
  | fails h _ => exact ⟨_, h⟩
  | stops h _ => exact ⟨_, h⟩
  | commits w b h _ _ => exact ⟨_, h⟩

theorem step_answers (s : State) : ∃ t, step s = .next t := by
  rcases hn : nextInstr s with u | i
  · exact ⟨u, step_of_error hn⟩
  · rw [step_of_ok hn]
    exact exec_answers i s

theorem eq_stor_of_mnemonic {i : Instr} (h : i.mnemonic = .stor) : i = .stor i.field := by
  have heta := Instr.ofMnemonic_eta i
  rw [h] at heta
  exact heta.symm

/-- A halt leaves the memory, and of the committing instructions only `STOR` writes it (R50). -/
theorem exec_mem_of_ne_stor {i : Instr} {s t : State} (h : exec i s = .next t) (hi : ∀ f, i ≠ .stor f) :
    t.mem = s.mem := by
  rcases exec_cases h with ⟨st, -, -, rfl⟩ | ⟨f, b, w, hw, rfl⟩
  · rfl
  · rw [retire_mem]
    rcases hw.mem with e | ⟨hm, -⟩
    · exact e
    · exact absurd (eq_stor_of_mnemonic hm) (hi _)

/-- A step that executes no `STOR` leaves the memory: without an instruction it can only halt (R59). -/
theorem step_mem_of_ne_stor {s t : State} (h : step s = .next t) (hs : ∀ f, nextInstr s ≠ .ok (.stor f)) :
    t.mem = s.mem := by
  rcases hn : nextInstr s with u | i
  · cases h.symm.trans (step_of_error hn)
    rcases nextInstr_eq_error hn with ⟨-, rfl⟩ | ⟨-, -, rfl⟩ | ⟨-, w, op, -, -, rfl⟩
    · rfl
    · rfl
    · rfl
  · rw [step_of_ok hn] at h
    exact exec_mem_of_ne_stor h fun f e => hs f (by rw [hn, e])

/-- A run that executes no `STOR` leaves the memory, by induction on the number of steps (R59). -/
theorem run_mem_of_ne_stor {k : Nat} {s t : State} (h : run k s = .next t)
    (hs : ∀ (j : Nat) (u : State), j < k → run j s = .next u → ∀ f : Field, nextInstr u ≠ .ok (.stor f)) :
    t.mem = s.mem := by
  induction k generalizing s with
  | zero => cases h; rfl
  | succ k ih =>
    obtain ⟨v, hv, hk⟩ := run_succ_eq_next.1 h
    have hfirst : v.mem = s.mem := step_mem_of_ne_stor hv (hs 0 s k.succ_pos rfl)
    have hrest : t.mem = v.mem := ih hk fun j u hj hu =>
      hs (j + 1) u (Nat.succ_lt_succ hj) (run_succ_eq_next.2 ⟨v, hv, hu⟩)
    exact hrest.trans hfirst

end Sys2Proof.Machine
end

section
/-! PROOFS. The statements about the data memory: what keeps its cells, and that no access misses one. -/

namespace Sys2Proof.Machine

/-- Settles O37: without a `STOR` the memory is the same list, so every address reads as before. -/
theorem memoryKeepsItsCellsBetweenStores : Obligations.MemoryKeepsItsCellsBetweenStores := by
  intro k s t h hs a
  rw [run_mem_of_ne_stor h hs]

/-- Settles O39. -/
theorem noStepFaultsOrIsRefused : Obligations.NoStepFaultsOrIsRefused := ⟨exec_answers, step_answers⟩

end Sys2Proof.Machine
end

section
/-! PROOFS, support. Words and their two fields under a legal opcode map (R71, R73). -/

namespace Sys2Proof

/-- A word `op ++ f` decodes to the map's mnemonic for `op` with the field `f` as it stands (R72). -/
theorem decode_append {om : OpcodeMap} {op : Field} {m : Mnemonic} (h : om[op.toNat]? = some m) (f : Field) :
    decode om (op ++ f) = .ok (Instr.ofMnemonic m f) := by
  simp [decode, opcodeField_append, operandField_append, h]

/-- Under a legal map the opcode value of a mnemonic is the one place where the map lists it. -/
theorem OpcodeMap.legal.getElem?_eq_some_iff {om : OpcodeMap} (h : om.legal) {op : Field} {m : Mnemonic} :
    om[op.toNat]? = some m ↔ op = opcodeOf om m := by
  have hm := h.getElem?_opcodeOf m
  obtain ⟨hlen, hnodup, -, -⟩ := h
  have hop : op.toNat < om.length := by omega
  constructor
  · intro hget
    exact BitVec.eq_of_toNat_eq ((List.getElem?_inj hop hnodup).1 (hget.trans hm.symm))
  · rintro rfl
    exact hm

theorem opcodeField_toNat (w : InstrWord) : (opcodeField w).toNat = w.toNat / 16 := by
  have := w.isLt
  rw [opcodeField, BitVec.extractLsb'_toNat, Nat.shiftRight_eq_div_pow]
  omega

theorem operandField_toNat (w : InstrWord) : (operandField w).toNat = w.toNat % 16 := by
  rw [operandField, BitVec.extractLsb'_toNat, Nat.shiftRight_zero]

end Sys2Proof
end

section
/-! PROOFS, support. Operand fields: the field of an assembled operand (R91), the immediate class, and the field that
stands for all the fields that do the same (R77, R80). -/

namespace Sys2Proof

open Machine

theorem assemble_register {m : Mnemonic}
    (h : m.operandClass = .registerOperand ∨ m.operandClass = .shift ∨ m.operandClass = .memoryOperand) (r : Fin 8) :
    assemble ⟨m, some (r.val : Int)⟩ = some (Instr.ofMnemonic m (BitVec.ofNat 4 r.val)) := by
  have hr : (0 : Int) ≤ r.val ∧ (r.val : Int) ≤ 15 := by omega
  rcases h with h | h | h <;> simp only [assemble, h, if_pos hr, Int.toNat_natCast]

/-- An immediate in `[-4, 3]` assembles to the field `n`, or `n + 8` where `n` is negative (R91). -/
theorem assemble_immediate {m : Mnemonic} {n : Int} (h : m.operandClass = .immediate) (h0 : -4 ≤ n) (h1 : n ≤ 3) :
    ∃ f : Field, assemble ⟨m, some n⟩ = some (Instr.ofMnemonic m f) ∧
      (f.toNat : Int) = if 0 ≤ n then n else n + 8 := by
  by_cases hn : 0 ≤ n
  · refine ⟨BitVec.ofNat 4 n.toNat, by simp [assemble, h, hn, h1], ?_⟩
    rw [if_pos hn, BitVec.toNat_ofNat]
    omega
  · refine ⟨BitVec.ofNat 4 (n + 8).toNat, by simp [assemble, h, hn, h0, Int.not_le.1 hn], ?_⟩
    rw [if_neg hn, BitVec.toNat_ofNat]
    omega

theorem assemble_control {m : Mnemonic} (h : m.operandClass = .control) :
    assemble ⟨m, none⟩ = some (Instr.ofMnemonic m 0) := by
  simp only [assemble, h]

/-- The field 0 to 7 that holds an immediate reads as that immediate (R77, R91). -/
theorem immediate?_of_toNat {f : Field} {n : Int} (hf : (f.toNat : Int) = if 0 ≤ n then n else n + 8) (h0 : -4 ≤ n)
    (h1 : n ≤ 3) : immediate? f = some n := by
  rw [immediate?_of_le (by omega)]
  congr 1
  omega

/-- The field that stands for the immediate fields that do the same: 8 to 11 go to 0 to 3 (R80). -/
def canonicalImmediate (f : Field) : Field := if 8 ≤ f.toNat ∧ f.toNat ≤ 11 then f - 8#4 else f

theorem canonicalImmediate_toNat (f : Field) :
    (canonicalImmediate f).toNat = if 8 ≤ f.toNat ∧ f.toNat ≤ 11 then f.toNat - 8 else f.toNat := by
  unfold canonicalImmediate
  split
  · next h => exact BitVec.toNat_sub_of_le (BitVec.le_def.2 h.1)
  · rfl

theorem immediate?_eq_none {f : Field} : immediate? f = none ↔ f.toNat ≥ 12 := by
  refine ⟨fun h => ?_, immediate?_of_ge⟩
  by_contra hlt
  rw [immediate?_of_le (by omega)] at h
  cases h

/-- The table of R77, read from the immediate to the canonical field. -/
theorem canonicalImmediate_of_immediate? {f : Field} {imm : Int} (h : immediate? f = some imm) :
    ((canonicalImmediate f).toNat : Int) = if 0 ≤ imm then imm else imm + 8 := by
  have hlt : ¬ f.toNat ≥ 12 := fun hge => by
    rw [immediate?_of_ge hge] at h
    cases h
  rw [immediate?_of_le (by omega), Option.some.injEq] at h
  rw [canonicalImmediate_toNat]
  split <;> omega

theorem canonicalImmediate_of_none {f : Field} (h : immediate? f = none) : canonicalImmediate f = f := by
  have := immediate?_eq_none.1 h
  exact if_neg (by omega)

/-- Aliases have the same immediate (R77, R80). -/
@[simp] theorem immediate?_canonicalImmediate (f : Field) : immediate? (canonicalImmediate f) = immediate? f := by
  cases h : immediate? f with
  | some imm =>
    obtain ⟨h0, h1⟩ := immediate?_range h
    exact immediate?_of_toNat (canonicalImmediate_of_immediate? h) h0 h1
  | none => rw [canonicalImmediate_of_none h, h]

/-- Fields of the immediate class with one immediate are aliases. -/
theorem canonicalImmediate_inj {f g : Field} {imm : Int} (hf : immediate? f = some imm) (hg : immediate? g = some imm) :
    canonicalImmediate f = canonicalImmediate g := by
  have hf' := canonicalImmediate_of_immediate? hf
  have hg' := canonicalImmediate_of_immediate? hg
  exact BitVec.eq_of_toNat_eq (by omega)

/-- The field of the canonical form, class by class. -/
def canonicalField (m : Mnemonic) (f : Field) : Field :=
  match m.operandClass with
  | .immediate => canonicalImmediate f
  | .control => 0#4
  | .registerOperand => f
  | .shift => f
  | .memoryOperand => f

/-- The canonical form keeps the mnemonic and takes the field to the canonical one. -/
theorem Instr.canonical_eq (i : Instr) : i.canonical = Instr.ofMnemonic i.mnemonic (canonicalField i.mnemonic i.field) := by
  cases i <;> rfl

/-- What a trace record shows of a field decides its canonical form, but for the fields that show nothing because they
fail the immediate class's check (R225). -/
theorem canonicalField_eq_of_traceOperand {m : Mnemonic} {f g : Field} (h : traceOperand m f = traceOperand m g)
    (hv : m.operandClass = .immediate → traceOperand m f ≠ none) : canonicalField m f = canonicalField m g := by
  cases hc : m.operandClass with
  | immediate =>
    simp only [traceOperand, hc] at h hv
    simp only [canonicalField, hc]
    obtain ⟨imm, himm⟩ := Option.ne_none_iff_exists'.1 (hv trivial)
    exact canonicalImmediate_inj himm (h ▸ himm)
  | control => simp only [canonicalField, hc]
  | registerOperand | shift | memoryOperand =>
    simp only [traceOperand, hc, Option.some.injEq, Int.natCast_inj] at h
    simp only [canonicalField, hc]
    exact BitVec.eq_of_toNat_eq h

end Sys2Proof
end

section
/-! PROOFS, support. The value of a wrapped integer (R11), what `MOVI` and `ADDI` do (R190, R191), and what of an
instruction an outcome can show (R80). -/

namespace Sys2Proof.Machine

/-- `wrapW` is what R11 says: in the 16-bit range and congruent to its argument. -/
theorem isWrap_wrapW (v : Int) : isWrap (wrapW v).toInt v := by
  have hdvd : (2 ^ 16 : Int) ∣ v - (wrapW v).toInt := by
    rw [wrapW_toInt]
    exact Int.dvd_self_sub_bmod
  obtain ⟨h0, h1⟩ := toInt_range (wrapW v)
  exact ⟨hdvd, by omega, by omega⟩

theorem exec_movi_of_immediate {s : State} {f : Field} {imm : Int} (h : immediate? f = some imm) :
    exec (.movi f) s = .next (retire .movi f false (s.setAcc (wrapW imm))) := withImmediate_ok h

theorem exec_addi_of_immediate {s : State} {f : Field} {imm : Int} (h : immediate? f = some imm) :
    exec (.addi f) s = .next (retire .addi f false (s.setAcc (wrapW (s.acc.toInt + imm)))) := withImmediate_ok h

/-- The immediate class fails on a field without an immediate (R192). -/
theorem exec_fails_of_immediate_none {i : Instr} (hc : i.mnemonic.operandClass = .immediate)
    (hn : immediate? i.field = none) (s : State) :
    exec i s = .next (raise (.operandOutOfRange i.mnemonic i.field) s) := by
  cases i with
  | movi f => exact withImmediate_fail hn
  | addi f => exact withImmediate_fail hn
  | _ => cases hc

/-! ### Aliases do the same -/

/-- Of the field, a commit shows only the operand in the trace record. -/
theorem retire_congr_field {m : Mnemonic} {f g : Field} (h : traceOperand m f = traceOperand m g) (b : Bool)
    (s : State) : retire m f b s = retire m g b s := by
  simp only [retire, emitTrace, traceRecord, h]

theorem withImmediate_canonical {m : Mnemonic} (hm : m.operandClass = .immediate) (f : Field) (s : State)
    (w : Int → State) :
    withImmediate m (canonicalImmediate f) s (fun imm => commit m (canonicalImmediate f) false (w imm)) =
      withImmediate m f s (fun imm => commit m f false (w imm)) := by
  cases h : immediate? f with
  | none => rw [canonicalImmediate_of_none h]
  | some imm =>
    have h' : immediate? (canonicalImmediate f) = some imm := (immediate?_canonicalImmediate f).trans h
    have ht : traceOperand m (canonicalImmediate f) = traceOperand m f := by simp [traceOperand, hm]
    rw [withImmediate_ok h, withImmediate_ok h', commit, commit, retire_congr_field ht]

/-- An instruction and its canonical form do the same in every state (R80). -/
theorem exec_canonical (i : Instr) (s : State) : exec i.canonical s = exec i s := by
  cases i with
  | movi f => exact withImmediate_canonical rfl f s _
  | addi f => exact withImmediate_canonical rfl f s _
  | _ => rfl

/-! ### Other instructions differ -/

/-- A running state with the trace on, below the ceiling: its outcomes tell all instructions but aliases apart. -/
def tellingState : State := { State.reset with debug := true }

/-- What `t`, the outcome of `i` in `tellingState`, shows of `i`: the error status records mnemonic and field, the trace
record mnemonic and operand. -/
inductive Shows (i : Instr) (t : State) : Prop where
  | failed (h : t.status = .haltedError (.operandOutOfRange i.mnemonic i.field))
  | stopped (h : t.status = .haltedNormal .stop) (hm : i.mnemonic = .stop)
  | committed (h : t.status = .running)
      (ht : t.trace.map (fun r => (r.mnemonic, r.operand)) = [(i.mnemonic, traceOperand i.mnemonic i.field)])
      (hv : i.mnemonic.operandClass = .immediate → traceOperand i.mnemonic i.field ≠ none)

theorem exec_shows {i : Instr} {t : State} (h : exec i tellingState = .next t) : Shows i t := by
  cases exec_does i tellingState with
  | fails h' _ =>
    cases h.symm.trans h'
    exact .failed rfl
  | stops h' hm =>
    cases h.symm.trans h'
    exact .stopped rfl hm
  | commits w b h' _ hw =>
    cases h.symm.trans h'
    have hrun : (retire i.mnemonic i.field b w).status = .running := by
      rw [retire_status, hw.status, hw.count]
      rfl
    obtain ⟨-, hdebug, -, -⟩ := hw.config
    refine .committed hrun ?_ fun hc hn => ?_
    · rw [retire_trace, hdebug, hw.trace]
      rfl
    · have hi : immediate? i.field = none := by simpa only [traceOperand, hc] using hn
      have hfail := exec_fails_of_immediate_none hc hi tellingState
      rw [Host.Outcome.next.inj (h.symm.trans hfail), raise_status] at hrun
      cases hrun

/-- Instructions that the same outcome can come from are aliases. -/
theorem Shows.canonical_eq {i j : Instr} {t : State} (hi : Shows i t) (hj : Shows j t) : i.canonical = j.canonical := by
  rw [Instr.canonical_eq, Instr.canonical_eq]
  cases hi with
  | failed h =>
    cases hj with
    | failed h' =>
      obtain ⟨hm, hf⟩ : i.mnemonic = j.mnemonic ∧ i.field = j.field := by simpa using h.symm.trans h'
      rw [hm, hf]
    | stopped h' _ => cases h.symm.trans h'
    | committed h' _ _ => cases h.symm.trans h'
  | stopped h hm =>
    cases hj with
    | failed h' => cases h.symm.trans h'
    | stopped _ hm' => rw [hm, hm']; rfl
    | committed h' _ _ => cases h.symm.trans h'
  | committed h ht hv =>
    cases hj with
    | failed h' => cases h.symm.trans h'
    | stopped h' _ => cases h.symm.trans h'
    | committed _ ht' _ =>
      obtain ⟨hm, ho⟩ : i.mnemonic = j.mnemonic ∧
          traceOperand i.mnemonic i.field = traceOperand j.mnemonic j.field := by simpa using ht.symm.trans ht'
      rw [hm] at ho hv ⊢
      rw [canonicalField_eq_of_traceOperand ho hv]

/-! ### The opcode map passes through -/

theorem retire_withOpcodeMap (m : Mnemonic) (f : Field) (b : Bool) (s : State) (om : OpcodeMap) :
    retire m f b { s with opcodeMap := om } = { retire m f b s with opcodeMap := om } := by
  apply State.ext <;> simp

end Sys2Proof.Machine
end

section
/-! PROOFS. The statements about the encoding: decoder, encoder, opcode maps, immediates, assembler and aliases. -/

namespace Sys2Proof.Machine

/-- Settles O3: a legal map lists each mnemonic at its opcode value, and the word splits where it was joined. -/
theorem decodeOfEncodeIsTheInstruction : Obligations.DecodeOfEncodeIsTheInstruction := by
  intro om i h
  rw [encode, decode_append (h.getElem?_opcodeOf i.mnemonic), Instr.ofMnemonic_eta]

/-- Settles O4: the map has a place for each opcode value and lists each mnemonic at one place. -/
theorem everyWordDecodesToOneInstruction : Obligations.EveryWordDecodesToOneInstruction := by
  intro om h
  have hlen : om.length = 16 := h.left
  refine ⟨fun op => ?_, fun m => ?_, fun w => ?_⟩
  · have hlt : op.toNat < om.length := by omega
    exact ⟨om[op.toNat], List.getElem?_eq_getElem hlt⟩
  · exact ⟨opcodeOf om m, h.getElem?_opcodeOf m, fun op hop => h.getElem?_eq_some_iff.1 hop⟩
  · obtain ⟨m, hget, hdec⟩ := decode_ok_of_length hlen w
    refine ⟨_, hdec, ?_, ?_, ?_⟩
    · rw [Instr.mnemonic_ofMnemonic, ← opcodeField_toNat, hget]
    · rw [Instr.field_ofMnemonic, operandField_toNat]
    · rw [encode, Instr.mnemonic_ofMnemonic, Instr.field_ofMnemonic, ← h.getElem?_eq_some_iff.1 hget, fields_append]

/-- Settles O6, class by class. -/
theorem canonicalEncodingOfAssembly : Obligations.CanonicalEncodingOfAssembly := by
  refine ⟨fun m r hc => ?_, fun m n hc h0 h1 => ?_, fun m hc => ?_, fun om i => rfl⟩
  · refine ⟨_, assemble_register hc r, Instr.mnemonic_ofMnemonic _ _, ?_⟩
    rw [Instr.field_ofMnemonic, BitVec.toNat_ofNat, Nat.mod_eq_of_lt (by omega)]
  · obtain ⟨f, hasm, hf⟩ := assemble_immediate hc h0 h1
    refine ⟨_, hasm, Instr.mnemonic_ofMnemonic _ _, ?_⟩
    rw [Instr.field_ofMnemonic]
    exact ⟨hf, immediate?_of_toNat hf h0 h1⟩
  · exact ⟨_, assemble_control hc, Instr.mnemonic_ofMnemonic _ _, Instr.field_ofMnemonic _ _⟩

/-- Settles O7: aliases share a canonical form, which does what they do; the outcomes of one state tell all others
apart. -/
theorem wordsActAlikeExactlyWhenAliases : Obligations.WordsActAlikeExactlyWhenAliases := by
  refine fun i j => ⟨fun h => ?_, fun h s => ?_⟩
  · obtain ⟨t, ht⟩ := exec_answers i tellingState
    have hj : exec j tellingState = .next t := (h tellingState).symm.trans ht
    exact (exec_shows ht).canonical_eq (exec_shows hj)
  · rw [← exec_canonical i, h, exec_canonical]

/-- Settles O8: no handler reads the opcode map, and the loop's commit passes it through. -/
theorem meaningsDoNotDependOnTheOpcodeMap : Obligations.MeaningsDoNotDependOnTheOpcodeMap := by
  intro i s t om h
  have hs : SameInputs s { s with opcodeMap := om } := ⟨rfl, rfl, rfl, rfl, rfl⟩
  cases exec_actsAlike i hs with
  | fails h₁ h₂ => cases h.symm.trans h₁; exact h₂
  | stops h₁ h₂ => cases h.symm.trans h₁; exact h₂
  | commits regs ra rp mem b h₁ h₂ =>
    cases h.symm.trans h₁
    rw [h₂, ← retire_withOpcodeMap]
    rfl
  | faults e h₁ _ => cases h.symm.trans h₁

/-- Settles O1: each row is the round trip of its mnemonic, whose opcode value under the default map is the row's. -/
theorem defaultMapDecodesEveryOpcode : Obligations.DefaultMapDecodesEveryOpcode := by
  intro f
  exact ⟨Laws.DefaultRoundTrip.sar f, Laws.DefaultRoundTrip.add f, Laws.DefaultRoundTrip.mov f,
    Laws.DefaultRoundTrip.nand f, Laws.DefaultRoundTrip.sll f, Laws.DefaultRoundTrip.srl f,
    Laws.DefaultRoundTrip.load f, Laws.DefaultRoundTrip.stor f, Laws.DefaultRoundTrip.sub f,
    Laws.DefaultRoundTrip.mlt f, Laws.DefaultRoundTrip.bslt f, Laws.DefaultRoundTrip.movi f,
    Laws.DefaultRoundTrip.addi f, Laws.DefaultRoundTrip.spc f, Laws.DefaultRoundTrip.b f,
    Laws.DefaultRoundTrip.stop f⟩

/-- Settles O2: each word is its row's opcode value followed by the field written there. -/
theorem wordsWrittenOutDecode : Obligations.WordsWrittenOutDecode :=
  ⟨Laws.DefaultRoundTrip.sar 5, Laws.DefaultRoundTrip.nand 7, Laws.DefaultRoundTrip.sll 1, Laws.DefaultRoundTrip.stor 2,
    Laws.DefaultRoundTrip.movi 4, Laws.DefaultRoundTrip.b 9, Laws.DefaultRoundTrip.stop 15⟩

/-- Settles O5: the table over the 16 fields, then the failure and the commit of `MOVI` and `ADDI`. -/
theorem immediateFieldTable : Obligations.ImmediateFieldTable := by
  refine ⟨by decide, fun s f h => ?_, fun s f imm h => ⟨?_, ?_⟩⟩
  · exact ⟨exec_fails_of_immediate_none (i := .movi f) rfl h s, exec_fails_of_immediate_none (i := .addi f) rfl h s⟩
  · obtain ⟨h0, h1⟩ := immediate?_range h
    refine ⟨_, exec_movi_of_immediate h, ?_⟩
    rw [State.reg_retire, State.reg_setAcc_same, wrapW_toInt_of_range (by omega) (by omega)]
  · refine ⟨_, exec_addi_of_immediate h, ?_⟩
    rw [State.reg_retire, State.reg_setAcc_same]
    exact isWrap_wrapW _

end Sys2Proof.Machine
end

section
/-! PROOFS, support. The execution loop: what one step does to `count` and to the trace, and how a run ends. -/

namespace Sys2Proof.Machine

/-! ### One step -/

/-- A step writes nothing but `status`, or it retires the instruction that it fetched (R101). -/
theorem step_status_or_retires {s t : State} (h : step s = .next t) :
    (∃ st : Status, t = { s with status := st }) ∨
    ∃ (i : Instr) (b : Bool) (w : State), nextInstr s = .ok i ∧ i.mnemonic ≠ .stop ∧
      HandlerLeaves i.mnemonic s w ∧ t = retire i.mnemonic i.field b w := by
  rcases hn : nextInstr s with u | i
  · cases h.symm.trans (step_of_error hn)
    rcases nextInstr_eq_error hn with ⟨-, rfl⟩ | ⟨-, -, rfl⟩ | ⟨-, w, op, -, -, rfl⟩
    · exact .inl ⟨t.status, rfl⟩
    · exact .inl ⟨_, rfl⟩
    · exact .inl ⟨_, rfl⟩
  · rw [step_of_ok hn] at h
    cases exec_does i s with
    | fails h' _ => cases h.symm.trans h'; exact .inl ⟨_, rfl⟩
    | stops h' _ => cases h.symm.trans h'; exact .inl ⟨_, rfl⟩
    | commits w b h' hm hw => cases h.symm.trans h'; exact .inr ⟨i, b, w, rfl, hm, hw, rfl⟩

/-- A step of a running core halts it or adds one to `count`, and reaches 1025 only by halting it (R106, R112). -/
theorem step_running_count {s t : State} (hr : s.status = .running) (h : step s = .next t) :
    (t.halted ∨ t.count = s.count + 1) ∧ (1025 ≤ t.count → t.halted) := by
  rcases step_cases h with ⟨hh, -⟩ | ⟨-, st, hst, -, rfl⟩ | ⟨-, -, -, m, f, b, w, hw, rfl⟩
  · exact absurd hr hh
  · exact ⟨.inl hst, fun _ => hst⟩
  · have hcount : (retire m f b w).count = s.count + 1 := by rw [retire_count, hw.count]
    refine ⟨.inr hcount, fun hc => ?_⟩
    have hover : w.count + 1 > 1024 := by rw [retire_count] at hc; omega
    simp [State.halted, hover]

/-- The operand that a record shows, for every mnemonic that can be traced (R225). -/
theorem traceOperand_of_ne_stop {m : Mnemonic} (hm : m ≠ .stop) (f : Field) : traceOperand m f =
    if m = .b then none else if m = .movi ∨ m = .addi then immediate? f else some (f.toNat : Int) := by
  cases m with
  | stop => exact absurd rfl hm
  | _ => rfl

/-- At the ceiling the loop's commit leaves what it leaves at any other count, but for `count` and `status` (R106). -/
theorem retire_at_ceiling (m : Mnemonic) (f : Field) (b : Bool) {w : State} (hw : w.count = 1024) (c : Nat) :
    retire m f b w = { retire m f b { w with count := c } with
      count := 1025, status := .haltedError .instructionCountExceeded } := by
  apply State.ext
  case count => rw [retire_count, hw]
  case status => rw [retire_status, if_pos (by omega)]
  all_goals simp

/-! ### Runs -/

theorem step_of_halted {s : State} (h : s.halted) : step s = .next s := step_of_error (nextInstr_halted h)

theorem run_of_halted {s : State} (h : s.halted) (k : Nat) : run k s = .next s := by
  induction k with
  | zero => rfl
  | succ k ih => exact run_succ_eq_next.2 ⟨s, step_of_halted h, ih⟩

/-- A state that the ceiling leaves running halts within the steps that `count` has left to 1025, by induction on their
number (R112). -/
theorem run_halts_within {n : Nat} {s : State} (hceil : 1025 ≤ s.count → s.halted)
    (hn : s.halted ∨ 1025 ≤ s.count + n) : ∃ (k : Nat) (t : State), k ≤ n ∧ run k s = .next t ∧ t.halted := by
  induction n generalizing s with
  | zero => exact ⟨0, s, le_rfl, rfl, hn.elim id hceil⟩
  | succ n ih =>
    by_cases hr : s.status = .running
    · obtain ⟨u, hu⟩ := step_answers s
      obtain ⟨hnext, hceil'⟩ := step_running_count hr hu
      have hleft : 1025 ≤ s.count + (n + 1) := hn.resolve_left (not_not.2 hr)
      obtain ⟨k, t, hk, hrun, ht⟩ := ih hceil' (hnext.imp_right fun e => by omega)
      exact ⟨k + 1, t, Nat.succ_le_succ hk, run_succ_eq_next.2 ⟨u, hu, hrun⟩, ht⟩
    · exact ⟨0, s, Nat.zero_le _, rfl, hr⟩

end Sys2Proof.Machine
end

section
/-! PROOFS. The statements about the execution loop: what a step runs, what it traces, and how every run ends. -/

namespace Sys2Proof.Machine

/-- Settles O31: the run halts before `count` can pass 1025, and every step keeps the rule on `count`, which says why. -/
theorem everyRunHaltsWithin1025Steps : Obligations.EveryRunHaltsWithin1025Steps := by
  refine ⟨fun s t hr h => step_running_count hr h, fun s hr hc => ?_⟩
  have hs : s.countOk := by simp [State.countOk, hr, hc]
  obtain ⟨k, t, hk, hrun, ht⟩ := run_halts_within (n := 1025) (s := s) (by omega) (.inr (by omega))
  obtain ⟨hle, hiff⟩ : t.countOk := run_keeps stepKeepsTheCountRule hs hrun
  exact ⟨k, t, hk, hrun, ht, hle, hiff⟩

/-- Settles O26. -/
theorem haltedStatusesAreAbsorbing : Obligations.HaltedStatusesAreAbsorbing :=
  fun _ k h => ⟨step_of_halted h, run_of_halted h k⟩

/-- Settles O29: no handler reads `count`, so the commit writes the same at both counts, and the ceiling alone differs. -/
theorem ceilingHaltsAfterTheCommit : Obligations.CeilingHaltsAfterTheCommit := by
  intro i s t c hr hs hc h ht
  have hsame : SameInputs s { s with count := c } := ⟨rfl, rfl, rfl, rfl, rfl⟩
  cases exec_actsAlike i hsame with
  | fails _ h' => cases h.symm.trans h'; simp at ht
  | stops _ h' => cases h.symm.trans h'; simp at ht
  | commits regs ra rp mem b h₁ h' =>
    cases h.symm.trans h'
    have hs' : (s.withWrites regs ra rp mem).count = 1024 := hs
    refine ⟨?_, h₁.trans (congrArg Host.Outcome.next (retire_at_ceiling _ _ b hs' c))⟩
    rw [retire_status, if_neg (by simp only [State.withWrites]; omega)]
    exact hr
  | faults e _ h' => cases h.symm.trans h'

/-- Settles O32: a step that writes nothing but `status` neither counts nor traces, and one that retires does both. -/
theorem traceRecordsCommittedStepsOnly : Obligations.TraceRecordsCommittedStepsOnly := by
  intro s t h
  rcases step_status_or_retires h with ⟨st, rfl⟩ | ⟨i, b, w, hi, hm, hw, rfl⟩
  · refine ⟨fun ⟨_, hc⟩ => ?_, fun _ => rfl⟩
    simp at hc
  · obtain ⟨-, hdebug, -, -⟩ := hw.config
    have hcount : (retire i.mnemonic i.field b w).count = s.count + 1 := by rw [retire_count, hw.count]
    refine ⟨fun ⟨hd, _⟩ => ⟨i, hi, ?_⟩, fun hnot => ?_⟩
    · simp [hdebug, hd, hw.trace, traceOperand_of_ne_stop hm]
    · have hd : s.debug = false := hnot.resolve_right (not_not.2 hcount)
      simp [hdebug, hd, hw.trace]

/-- Settles O25. -/
theorem stepRunsTheDecodedInstruction : Obligations.StepRunsTheDecodedInstruction :=
  fun _ w _ hr hpc hw hd => step_of_ok (nextInstr_eq_ok.2 ⟨hr, w, hpc, hw, hd⟩)

/-- Settles O27: outside `[0, N)` there is no word to fetch. -/
theorem pcOutsideTheProgramHaltsNormally : Obligations.PcOutsideTheProgramHaltsNormally :=
  fun _ hr hpc => step_of_error (nextInstr_endOfProgram hr (fetch_eq_none.2 hpc))

end Sys2Proof.Machine
end

section
/-! PROOFS, support. What the register-operand class leaves (R130 to R138): the loop's commit and the frame, for any
handler's writes and for a write to the accumulator, and how long `Ra` lasts. -/

namespace Sys2Proof.Machine

/-- A field that names a register is traced as that register's index (R225). -/
theorem traceOperand_of_registerField {m : Mnemonic}
    (hm : m.operandClass = .registerOperand ∨ m.operandClass = .shift ∨ m.operandClass = .memoryOperand)
    {f : Field} {r : Fin 8} (h : f.toNat = r.val) : traceOperand m f = some (r.val : Int) := by
  rcases hm with hm | hm | hm <;> simp only [traceOperand, hm, h]

theorem memSame_of_eq {s t : State} (h : t.mem = s.mem) : memSame s t := fun a => by rw [h]

/-! ### The loop around a handler -/

/-- Around what a handler leaves, the loop does what R104 to R106 and R110 say. -/
theorem HandlerLeaves.loopCommitted {m : Mnemonic} {s w : State} (hw : HandlerLeaves m s w) {f : Field}
    {op : Option Int} (hop : traceOperand m f = op) (b : Bool) :
    loopCommitted m op (if b then w.rp else s.pc) s (retire m f b w) := by
  obtain ⟨hprog, hdebug, hmap, hreport⟩ := hw.config
  refine ⟨?_, ?_, ?_, ?_, ?_, ?_, ?_, ?_⟩
  · rw [retire_pc, hw.pc]
  · rw [retire_count, hw.count]
  · rw [retire_status, hw.count, hw.status]
  · simp [hdebug, hw.trace, hop]
  · rw [retire_prog, hprog]
  · rw [retire_debug, hdebug]
  · rw [retire_opcodeMap, hmap]
  · rw [retire_memImageMalformed, hreport]

theorem HandlerLeaves.setRa (s : State) (r : Fin 8) : HandlerLeaves .sar s (s.setRa r) :=
  ⟨rfl, rfl, rfl, ⟨rfl, rfl, rfl, rfl⟩, rfl, .inl rfl, .inr rfl, .inl rfl, .inl rfl⟩

theorem HandlerLeaves.setRp (s : State) (v : Word) : HandlerLeaves .spc s (s.setRp (s.pc + v.toInt)) :=
  ⟨rfl, rfl, rfl, ⟨rfl, rfl, rfl, rfl⟩, rfl, .inl rfl, .inl rfl, .inr ⟨rfl, v, rfl⟩, .inl rfl⟩

/-- An instruction that commits `R[Ra] <- v` has this result and this frame. -/
theorem exec_of_retire_setAcc {i : Instr} {s : State} {v : Word} {op : Option Int}
    (h : exec i s = .next (retire i.mnemonic i.field false (s.setAcc v)))
    (hm : i.mnemonic ∈ ([.add, .mov, .nand, .sub, .mlt, .sll, .srl, .load, .movi, .addi] : List Mnemonic))
    (hop : traceOperand i.mnemonic i.field = op) :
    ∃ t, exec i s = .next t ∧ t.reg s.ra = v ∧ otherRegsSame s.ra s t ∧ t.ra = s.ra ∧ t.rp = s.rp ∧ memSame s t ∧
      loopCommitted i.mnemonic op s.pc s t := by
  refine ⟨_, h, ?_, fun j hj => ?_, retire_ra .., retire_rp .., memSame_of_eq (retire_mem ..),
    (HandlerLeaves.setAcc s v hm).loopCommitted hop false⟩
  · rw [State.reg_retire, State.reg_setAcc_same]
  · rw [State.reg_retire, State.reg_setAcc_other s v hj]

/-- An instruction that commits `R[Ra] <- wrapW(x)` leaves the wrapped value, with the same frame (R11). -/
theorem exec_of_retire_wrapW {i : Instr} {s : State} {x : Int} {op : Option Int}
    (h : exec i s = .next (retire i.mnemonic i.field false (s.setAcc (wrapW x))))
    (hm : i.mnemonic ∈ ([.add, .mov, .nand, .sub, .mlt, .sll, .srl, .load, .movi, .addi] : List Mnemonic))
    (hop : traceOperand i.mnemonic i.field = op) :
    ∃ t, exec i s = .next t ∧ isWrap (t.reg s.ra).toInt x ∧ otherRegsSame s.ra s t ∧ t.ra = s.ra ∧ t.rp = s.rp ∧
      memSame s t ∧ loopCommitted i.mnemonic op s.pc s t := by
  obtain ⟨t, ht, hacc, hframe⟩ := exec_of_retire_setAcc h hm hop
  exact ⟨t, ht, hacc ▸ isWrap_wrapW x, hframe⟩

theorem signedLess_eq_true {a b : Word} : signedLess a b = true ↔ a.toInt < b.toInt := decide_eq_true_iff

/-- The bitwise complement of a word is `-v - 1` in two's complement (R133). -/
theorem toInt_complement (v : Word) : (~~~v).toInt = -v.toInt - 1 := by
  rw [BitVec.toInt_eq_toNat_cond, BitVec.toInt_eq_toNat_cond, BitVec.toNat_not]
  omega

/-! ### How long `Ra` lasts -/

/-- What every step out of a state in `Q` keeps, a run keeps whose states before the last are in `Q`. -/
theorem run_keeps_while {P Q : State → Prop} (hstep : ∀ u v, Q u → P u → step u = .next v → P v) {k : Nat}
    {s t : State} (hs : P s) (h : run k s = .next t) (hq : ∀ (j : Nat) (u : State), j < k → run j s = .next u → Q u) :
    P t := by
  induction k generalizing s with
  | zero => cases h; exact hs
  | succ k ih =>
    obtain ⟨v, hv, hk⟩ := run_succ_eq_next.1 h
    have hfirst : P v := hstep s v (hq 0 s k.succ_pos rfl) hs hv
    exact ih hfirst hk fun j u hj hu => hq (j + 1) u (Nat.succ_lt_succ hj) (run_succ_eq_next.2 ⟨v, hv, hu⟩)

/-- A step that executes no `SAR` leaves `Ra` (R22). -/
theorem step_ra_of_ne_sar {s t : State} (hs : ∀ f, nextInstr s ≠ .ok (.sar f)) (h : step s = .next t) :
    t.ra = s.ra := by
  rcases step_status_or_retires h with ⟨st, rfl⟩ | ⟨i, b, w, hi, -, hw, rfl⟩
  · rfl
  · rw [retire_ra]
    refine hw.ra.resolve_right fun hm => hs i.field ?_
    have hsar : i = .sar i.field := (Instr.ofMnemonic_eta i).symm.trans (by rw [hm]; rfl)
    rw [hi, ← hsar]

end Sys2Proof.Machine
end

section
/-! PROOFS. The statements about the register-operand class, one per instruction. In each, the word decodes by its row
of the default map, a field that names a register commits, and a field over 7 fails the class check (R138). -/

namespace Sys2Proof.Machine

/-- Settles O9: `Ra` is `r` after the commit, and only another `SAR` writes it. -/
theorem sarSetsTheActiveRegister : Obligations.SarSetsTheActiveRegister := by
  refine ⟨Laws.DefaultRoundTrip.sar, fun s f r hf => ?_, fun s f hf => withRegister_fail hf⟩
  have hra : (retire .sar f false (s.setRa r)).ra = r := retire_ra ..
  refine ⟨_, withRegister_ok hf, hra, State.reg_retire _ _ _ _, retire_rp .., memSame_of_eq (retire_mem ..),
    (HandlerLeaves.setRa s r).loopCommitted (traceOperand_of_registerField (.inl rfl) hf) false, fun k u hk hno => ?_⟩
  exact run_keeps_while (fun v w hv hr hw => (step_ra_of_ne_sar hv hw).trans hr) hra hk hno

/-- Settles O10. -/
theorem addWrapsTheSumIntoTheAccumulator : Obligations.AddWrapsTheSumIntoTheAccumulator := by
  refine ⟨Laws.DefaultRoundTrip.add, fun s f r hf => ?_, fun s f hf => withRegister_fail hf⟩
  exact exec_of_retire_wrapW (i := .add f) (withRegister_ok hf) (by simp [Instr.mnemonic])
    (traceOperand_of_registerField (.inl rfl) hf)

/-- Settles O11. -/
theorem movCopiesARegisterToTheAccumulator : Obligations.MovCopiesARegisterToTheAccumulator := by
  refine ⟨Laws.DefaultRoundTrip.mov, fun s f r hf => ?_, fun s f hf => withRegister_fail hf⟩
  exact exec_of_retire_setAcc (i := .mov f) (withRegister_ok hf) (by simp [Instr.mnemonic])
    (traceOperand_of_registerField (.inl rfl) hf)

/-- Settles O12: the complement flips every bit, and as an integer it is `-v - 1`. -/
theorem nandIsBitwiseNotAnd : Obligations.NandIsBitwiseNotAnd := by
  refine ⟨Laws.DefaultRoundTrip.nand, fun s f r hf => ?_, fun s f hf => withRegister_fail hf⟩
  obtain ⟨t, ht, hacc, hframe⟩ := exec_of_retire_setAcc (i := .nand f) (s := s) (withRegister_ok hf)
    (by simp [Instr.mnemonic]) (traceOperand_of_registerField (.inl rfl) hf)
  have hval : t.reg s.ra = ~~~(s.reg s.ra &&& s.reg r) := hacc
  refine ⟨t, ht, fun k => ?_, ?_, ?_, hframe⟩
  · simp [hval, k.isLt]
  · rw [hval, toInt_complement]
  · rintro rfl
    rw [hval, BitVec.and_self, toInt_complement]

/-- Settles O13. -/
theorem subWrapsTheDifferenceIntoTheAccumulator : Obligations.SubWrapsTheDifferenceIntoTheAccumulator := by
  refine ⟨Laws.DefaultRoundTrip.sub, fun s f r hf => ?_, fun s f hf => withRegister_fail hf⟩
  exact exec_of_retire_wrapW (i := .sub f) (withRegister_ok hf) (by simp [Instr.mnemonic])
    (traceOperand_of_registerField (.inl rfl) hf)

/-- Settles O14. -/
theorem mltWrapsTheProductIntoTheAccumulator : Obligations.MltWrapsTheProductIntoTheAccumulator := by
  refine ⟨Laws.DefaultRoundTrip.mlt, fun s f r hf => ?_, fun s f hf => withRegister_fail hf⟩
  exact exec_of_retire_wrapW (i := .mlt f) (withRegister_ok hf) (by simp [Instr.mnemonic])
    (traceOperand_of_registerField (.inl rfl) hf)

/-- Settles O15: the handler writes nothing, and a taken branch to a `pc` outside the program ends the run there. -/
theorem bsltBranchesWhenSignedLess : Obligations.BsltBranchesWhenSignedLess := by
  refine ⟨Laws.DefaultRoundTrip.bslt, fun s f r hf => ?_, fun s f hf => withRegister_fail hf⟩
  have hloop := (HandlerLeaves.same .bslt s).loopCommitted (traceOperand_of_registerField (.inl rfl) hf)
    (signedLess s.acc (s.reg r))
  simp only [signedLess_eq_true] at hloop
  refine ⟨_, withRegister_ok hf, State.reg_retire _ _ _ _, retire_ra .., retire_rp .., memSame_of_eq (retire_mem ..),
    hloop, fun hlt hrun hout => ?_⟩
  have htaken : signedLess s.acc (s.reg r) = true := signedLess_eq_true.2 hlt
  apply pcOutsideTheProgramHaltsNormally _ hrun
  rwa [retire_pc, retire_prog, if_pos htaken]

/-- Settles O16: a later `B` lands one after the `Rp` that the commit leaves. -/
theorem spcSetsTheProgramRegister : Obligations.SpcSetsTheProgramRegister := by
  refine ⟨Laws.DefaultRoundTrip.spc, fun s f r hf => ?_, fun s f hf => withRegister_fail hf⟩
  have hrp : (retire .spc f false (s.setRp (s.pc + (s.reg r).toInt))).rp = s.pc + (s.reg r).toInt := retire_rp ..
  refine ⟨_, withRegister_ok hf, hrp, State.reg_retire _ _ _ _, retire_ra .., memSame_of_eq (retire_mem ..),
    (HandlerLeaves.setRp s (s.reg r)).loopCommitted (traceOperand_of_registerField (.inl rfl) hf) false,
    fun g u v hu hv => ?_⟩
  cases hv
  rw [retire_pc, if_pos rfl, hu, hrp]

end Sys2Proof.Machine
end

section
/-! PROOFS, support. The arithmetic of the shift class (R170, R171): a left shift by 16 or more places leaves nothing in
a word, and the quotient of a right shift is in range, so that wrapping leaves it as it is. -/

namespace Sys2Proof.Machine

/-- Shifted left by 16 or more places, a value wraps to 0 (D22): `2^16` divides it. -/
theorem wrapW_mul_two_pow_of_ge (v : Int) {n : Nat} (h : 16 ≤ n) : wrapW (v * 2 ^ n) = 0 := by
  have hdvd : (2 ^ 16 : Int) ∣ v * 2 ^ n := Dvd.dvd.mul_left (pow_dvd_pow 2 h) v
  apply BitVec.eq_of_toInt_eq
  rw [wrapW_toInt]
  exact Int.bmod_eq_zero_of_dvd hdvd

/-! ### Division rounding down -/

theorem floorDiv_eq_ediv (a : Int) {d : Int} (hd : 0 < d) : floorDiv a d = a / d :=
  Int.fdiv_eq_ediv_of_nonneg a hd.le

theorem floorDiv_mul_le (a : Int) {d : Int} (hd : 0 < d) : floorDiv a d * d ≤ a := by
  rw [floorDiv_eq_ediv a hd]
  exact Int.ediv_mul_le a hd.ne'

theorem lt_floorDiv_add_one_mul (a : Int) {d : Int} (hd : 0 < d) : a < (floorDiv a d + 1) * d := by
  rw [floorDiv_eq_ediv a hd]
  exact Int.lt_ediv_add_one_mul_self a hd

/-- The quotient of a word by a positive integer is in the 16-bit range. -/
theorem wrapW_floorDiv_toInt (w : Word) {d : Int} (hd : 0 < d) :
    (wrapW (floorDiv w.toInt d)).toInt = floorDiv w.toInt d := by
  obtain ⟨hlo, hhi⟩ := toInt_range w
  rw [floorDiv_eq_ediv _ hd]
  have hge : -32768 ≤ w.toInt / d := (Int.le_ediv_iff_mul_le hd).2 (by omega)
  have hlt : w.toInt / d < 32768 := (Int.ediv_lt_iff_lt_mul hd).2 (by omega)
  exact wrapW_toInt_of_range hge (by omega)

end Sys2Proof.Machine
end

section
/-! PROOFS. The statements about the shift class. In each, the word decodes by its row of the default map, a field that
names a register with an amount that is not negative commits, and a field over 7 or a negative amount fails the class
check (R172). -/

namespace Sys2Proof.Machine

/-- Settles O17: the accumulator gets the wrapped product, which is 0 when `2^16` divides it. -/
theorem sllWrapsTheLeftShift : Obligations.SllWrapsTheLeftShift := by
  refine ⟨Laws.DefaultRoundTrip.sll, fun s f r hf h0 => ?_, fun s f hf => withShiftAmount_fail_field hf,
    fun s f r hf hneg => withShiftAmount_fail_value hf hneg⟩
  obtain ⟨t, ht, hacc, hframe⟩ := exec_of_retire_setAcc (i := .sll f) (withShiftAmount_ok hf h0)
    (by simp [Instr.mnemonic]) (traceOperand_of_registerField (.inr (.inl rfl)) hf)
  refine ⟨t, ht, ?_, fun h16 => ?_, hframe⟩
  · rw [hacc]
    exact isWrap_wrapW _
  · rw [hacc]
    exact wrapW_mul_two_pow_of_ge _ (by omega)

/-- Settles O18: the accumulator gets the floor of the quotient, which is in range and does not wrap. -/
theorem srlIsTheArithmeticRightShift : Obligations.SrlIsTheArithmeticRightShift := by
  refine ⟨Laws.DefaultRoundTrip.srl, fun s f r hf h0 => ?_, fun s f hf => withShiftAmount_fail_field hf,
    fun s f r hf hneg => withShiftAmount_fail_value hf hneg⟩
  obtain ⟨t, ht, hacc, hframe⟩ := exec_of_retire_setAcc (i := .srl f) (withShiftAmount_ok hf h0)
    (by simp [Instr.mnemonic]) (traceOperand_of_registerField (.inr (.inl rfl)) hf)
  have hd : (0 : Int) < 2 ^ (s.reg r).toInt.toNat := Int.pow_pos (by decide)
  have hquot : (t.reg s.ra).toInt = floorDiv (s.reg s.ra).toInt (2 ^ (s.reg r).toInt.toNat) := by
    rw [hacc]
    exact wrapW_floorDiv_toInt (s.reg s.ra) hd
  refine ⟨t, ht, ?_, ?_, hframe⟩
  · rw [hquot]
    exact floorDiv_mul_le _ hd
  · rw [hquot]
    exact lt_floorDiv_add_one_mul _ hd

end Sys2Proof.Machine
end

section
/-! PROOFS, support. What the memory-operand class commits (R180, R181): an operand register that holds a data address
passes the class check (R182), and the primitive then finds its cell. A run keeps its program whatever it stores. -/

namespace Sys2Proof.Machine

section
variable {s : State} {f : Field} {r : Fin 8}

/-- `LOAD` with a data address in its operand register commits the cell to the accumulator (R180). -/
theorem exec_load_of_range (hf : f.toNat = r.val) (h0 : 0 ≤ (s.reg r).toInt) (h1 : (s.reg r).toInt ≤ 127) :
    exec (.load f) s = .next (retire .load f false (s.setAcc (s.mem.read (s.reg r).toInt.toNat))) := by
  refine (withDataAddress_ok hf h0 h1).trans ?_
  rw [memRead_of_range h0 h1]
  rfl

/-- `STOR` with a data address in its operand register commits the accumulator to the cell (R181). -/
theorem exec_stor_of_range (hf : f.toNat = r.val) (h0 : 0 ≤ (s.reg r).toInt) (h1 : (s.reg r).toInt ≤ 127) :
    exec (.stor f) s = .next (retire .stor f false (s.setMem (s.mem.write (s.reg r).toInt.toNat s.acc))) := by
  refine (withDataAddress_ok hf h0 h1).trans ?_
  rw [memWrite_of_range s.acc h0 h1]
  rfl

end

/-- Of the handlers, `STOR` alone may leave a memory in which one cell has been written (R50). -/
theorem HandlerLeaves.setMem {s : State} {a : Int} {v : Word} {m : Memory} (h : memWrite s.mem a v = .ok m) :
    HandlerLeaves .stor s (s.setMem m) :=
  ⟨rfl, rfl, rfl, ⟨rfl, rfl, rfl, rfl⟩, rfl, .inl rfl, .inl rfl, .inl rfl, .inr ⟨rfl, a, v, h⟩⟩

/-- What fetch reads is out of reach of every store: a run keeps the program store (R34, R35). -/
theorem run_prog {k : Nat} {s t : State} (h : run k s = .next t) : t.prog = s.prog := by
  refine run_keeps (P := fun u => u.prog = s.prog) (fun u v hu hv => ?_) rfl h
  obtain ⟨hprog, -⟩ := step_sameConfig hv
  exact hprog.trans hu

end Sys2Proof.Machine
end

section
/-! PROOFS. The statements about the memory-operand class. In each, the word decodes by its row of the default map, a
field that names a register with an address in 0 to 127 commits, and a field over 7 or any other address fails the class
check (R182). -/

namespace Sys2Proof.Machine

/-- Settles O19: the accumulator gets what `MemRead` answers at the operand's address. -/
theorem loadCopiesACellToTheAccumulator : Obligations.LoadCopiesACellToTheAccumulator := by
  refine ⟨Laws.DefaultRoundTrip.load, fun s f r hf h0 h1 => ?_, fun s f hf => withDataAddress_fail_field hf,
    fun s f r hf hout => withDataAddress_fail_value hf hout⟩
  obtain ⟨t, ht, hacc, hframe⟩ := exec_of_retire_setAcc (i := .load f) (exec_load_of_range hf h0 h1)
    (by simp [Instr.mnemonic]) (traceOperand_of_registerField (.inr (.inr rfl)) hf)
  have hcell : memRead s.mem (s.reg r).toInt = .ok (t.reg s.ra) := by rw [memRead_of_range h0 h1, hacc]
  exact ⟨t, ht, hcell, hframe⟩

/-- Settles O20: the memory after the commit is what `MemWrite` leaves, and it stays until another `STOR`. -/
theorem storWritesOneCell : Obligations.StorWritesOneCell := by
  refine ⟨Laws.DefaultRoundTrip.stor, fun s f r hwf hf h0 h1 => ?_, fun s f hf => withDataAddress_fail_field hf,
    fun s f r hf hout => withDataAddress_fail_value hf hout⟩
  have hwrite := memWrite_of_range (m := s.mem) s.acc h0 h1
  obtain ⟨-, hcell, hothers⟩ := memWrite_spec hwrite hwf
  have hloop := (HandlerLeaves.setMem hwrite).loopCommitted (traceOperand_of_registerField (.inr (.inr rfl)) hf) false
  refine ⟨_, _, exec_stor_of_range hf h0 h1, dataAddress?_of_range h0 h1, rfl, ?_, fun b hb => ?_,
    State.reg_retire _ _ _ _, retire_ra .., retire_rp .., hloop, fun k u hk => ⟨?_, fun hno => ?_⟩⟩
  · rw [retire_mem]
    exact hcell
  · rw [retire_mem]
    exact hothers b hb
  · rw [run_prog hk, retire_prog, State.setMem_prog]
  · rw [run_mem_of_ne_stor hk hno, retire_mem]
    exact hcell

end Sys2Proof.Machine
end

section
/-! PROOFS. The statements about the immediate class. In each, the word decodes by its row of the default map, a field up
to 11 has an immediate and commits, and a field from 12 on has none and fails the class check (R192). -/

namespace Sys2Proof.Machine

/-- Settles O21: every immediate lies in `[-4, 3]`, so that the word written holds it without wrapping. -/
theorem moviWritesTheImmediate : Obligations.MoviWritesTheImmediate := by
  refine ⟨Laws.DefaultRoundTrip.movi, fun s f imm hf himm => ?_,
    fun s f hf => exec_fails_of_immediate_none (i := .movi f) rfl (immediate?_of_ge hf) s⟩
  have hi : immediate? f = some imm := himm ▸ immediate?_of_le hf
  obtain ⟨hlo, hhi⟩ := immediate?_range hi
  obtain ⟨t, ht, hacc, hframe⟩ := exec_of_retire_setAcc (i := .movi f) (exec_movi_of_immediate (s := s) hi)
    (by simp [Instr.mnemonic]) hi
  have hval : (t.reg s.ra).toInt = imm := by rw [hacc, wrapW_toInt_of_range (by omega) (by omega)]
  exact ⟨t, ht, hval, hframe⟩

/-- Settles O22: the accumulator gets the wrapped sum, and its trace record shows the immediate. -/
theorem addiWrapsTheSumWithTheImmediate : Obligations.AddiWrapsTheSumWithTheImmediate := by
  refine ⟨Laws.DefaultRoundTrip.addi, fun s f imm hf himm => ?_,
    fun s f hf => exec_fails_of_immediate_none (i := .addi f) rfl (immediate?_of_ge hf) s⟩
  have hi : immediate? f = some imm := himm ▸ immediate?_of_le hf
  exact exec_of_retire_wrapW (i := .addi f) (exec_addi_of_immediate hi) (by simp [Instr.mnemonic]) hi

end Sys2Proof.Machine
end

section
/-! PROOFS. The statements about the control class. In each, the word decodes by its row of the default map, and no class
check stands before the handler: the instruction completes for every field (R200, R201). -/

namespace Sys2Proof.Machine

/-- `B` writes nothing of its own and commits with the branch taken (R200). -/
theorem exec_b (f : Field) (s : State) : exec (.b f) s = .next (retire .b f true s) := rfl

/-- `STOP` halts in its handler and never reaches the loop's commit (R201). -/
theorem exec_stop (f : Field) (s : State) : exec (.stop f) s = .next (haltNormally .stop s) := rfl

/-- Settles O23: the commit adds one to `Rp`, and a `pc` outside the program ends the run in the next step. -/
theorem branchLandsAfterTheProgramRegister : Obligations.BranchLandsAfterTheProgramRegister := by
  refine ⟨Laws.DefaultRoundTrip.b, fun s f => ?_⟩
  have hloop : loopCommitted .b none s.rp s (retire .b f true s) := (HandlerLeaves.same .b s).loopCommitted rfl true
  refine ⟨_, exec_b f s, State.reg_retire _ _ _ _, retire_ra .., retire_rp .., memSame_of_eq (retire_mem ..), hloop,
    fun hrun hout => ?_⟩
  apply pcOutsideTheProgramHaltsNormally _ hrun
  rwa [retire_pc, retire_prog, if_pos rfl]

/-- Settles O24. -/
theorem stopHaltsNormally : Obligations.StopHaltsNormally :=
  ⟨Laws.DefaultRoundTrip.stop, fun s f => exec_stop f s⟩

end Sys2Proof.Machine
end

section
/-! PROOFS, support. The trace enable and the records emitted so far pass through a step unread (R224): no handler reads
them, and of the loop's commit only the trace does. -/

namespace Sys2Proof.Machine

/-- The state with another trace enable and other records emitted so far. -/
def State.withTracing (s : State) (d : Bool) (tr : List TraceRecord) : State := { s with debug := d, trace := tr }

theorem State.withTracing_sameInputs (s : State) (d : Bool) (tr : List TraceRecord) :
    SameInputs s (s.withTracing d tr) := ⟨rfl, rfl, rfl, rfl, rfl⟩

/-- The loop's commit under another tracing differs in its trace alone. -/
theorem retire_withTracing (m : Mnemonic) (f : Field) (b : Bool) (w : State) (d : Bool) (tr : List TraceRecord) :
    ∃ tr', retire m f b (w.withTracing d tr) = (retire m f b w).withTracing d tr' := by
  refine ⟨(retire m f b (w.withTracing d tr)).trace, ?_⟩
  apply State.ext <;> simp [State.withTracing]

theorem exec_withTracing {i : Instr} {s t : State} (d : Bool) (tr : List TraceRecord) (h : exec i s = .next t) :
    ∃ tr', exec i (s.withTracing d tr) = .next (t.withTracing d tr') := by
  cases exec_actsAlike i (s.withTracing_sameInputs d tr) with
  | fails h₁ h₂ => cases h.symm.trans h₁; exact ⟨tr, h₂⟩
  | stops h₁ h₂ => cases h.symm.trans h₁; exact ⟨tr, h₂⟩
  | commits regs ra rp mem b h₁ h₂ =>
    cases h.symm.trans h₁
    obtain ⟨tr', hr⟩ := retire_withTracing i.mnemonic i.field b (s.withWrites regs ra rp mem) d tr
    exact ⟨tr', h₂.trans (congrArg Host.Outcome.next hr)⟩
  | faults e h₁ _ => cases h.symm.trans h₁

/-- A fetched word whose opcode the map lacks ends the step in `DecodeFailure` (R109, R212). -/
theorem nextInstr_decodeFailure {s : State} {w : InstrWord} {op : Field} (hr : s.status = .running)
    (hf : fetch s = some w) (hd : decode s.opcodeMap w = .error (.opcodeNotInTable op)) :
    nextInstr s = .error (raise (.decodeFailure op) s) := by
  simp [nextInstr, hr, hf, hd, decodeFailureCause]

theorem step_withTracing {s t : State} (d : Bool) (tr : List TraceRecord) (h : step s = .next t) :
    ∃ tr', step (s.withTracing d tr) = .next (t.withTracing d tr') := by
  rcases hn : nextInstr s with u | i
  · cases h.symm.trans (step_of_error hn)
    rcases nextInstr_eq_error hn with ⟨hh, rfl⟩ | ⟨hr, hf, rfl⟩ | ⟨hr, w, op, hf, hd, rfl⟩
    · exact ⟨tr, step_of_halted hh⟩
    · exact ⟨tr, step_of_error (nextInstr_endOfProgram hr hf)⟩
    · exact ⟨tr, step_of_error (nextInstr_decodeFailure hr hf hd)⟩
  · have hfetched := nextInstr_eq_ok.1 hn
    have hn' : nextInstr (s.withTracing d tr) = .ok i := nextInstr_eq_ok.2 hfetched
    rw [step_of_ok hn] at h
    rw [step_of_ok hn']
    exact exec_withTracing d tr h

/-- Runs under two tracings stay in lockstep, by induction on the number of steps. -/
theorem run_withTracing {k : Nat} {s t : State} (d : Bool) (tr : List TraceRecord) (h : run k s = .next t) :
    ∃ tr', run k (s.withTracing d tr) = .next (t.withTracing d tr') := by
  induction k generalizing s tr with
  | zero => cases h; exact ⟨tr, rfl⟩
  | succ k ih =>
    obtain ⟨u, hu, hk⟩ := run_succ_eq_next.1 h
    obtain ⟨tr₁, hu'⟩ := step_withTracing d tr hu
    obtain ⟨tr₂, hk'⟩ := ih tr₁ hk
    exact ⟨tr₂, run_succ_eq_next.2 ⟨_, hu', hk'⟩⟩

end Sys2Proof.Machine
end

section
/-! PROOFS, support. The operand check decides what an instruction does (R211, R108), and each status in which a step of
a running core can end has one source. -/

namespace Sys2Proof.Machine

/-- A failed operand check halts with its own cause and changes nothing else (R108). -/
theorem exec_of_operandFails {i : Instr} {s : State} (h : operandFails i s) :
    exec i s = .next (haltedOutOfRange i.mnemonic i.field s) := by
  cases i with
  | sar f | add f | mov f | nand f | sub f | mlt f | bslt f | spc f => exact withRegister_fail h
  | sll f | srl f =>
    rcases h with hf | ⟨r, hr, hneg⟩
    · exact withShiftAmount_fail_field hf
    · exact withShiftAmount_fail_value hr.symm hneg
  | load f | stor f =>
    rcases h with hf | ⟨r, hr, hout⟩
    · exact withDataAddress_fail_field hf
    · exact withDataAddress_fail_value hr.symm hout
  | movi f | addi f => exact withImmediate_fail (immediate?_of_ge h)
  | b f | stop f => exact h.elim

/-- A commit counts and a failure does not. -/
theorem retire_ne_raise {m : Mnemonic} {f : Field} {b : Bool} {c : ErrorCause} {s w : State} (hw : w.count = s.count) :
    retire m f b w ≠ raise c s := by
  intro h
  have hcount := congrArg State.count h
  rw [retire_count, raise_count, hw] at hcount
  omega

/-- A field names a register that holds a data address, or the check of the memory-operand class fails (R182). -/
theorem dataAddress_cases (f : Field) (s : State) :
    (∃ r : Fin 8, f.toNat = r.val ∧ 0 ≤ (s.reg r).toInt ∧ (s.reg r).toInt ≤ 127) ∨
    (f.toNat > 7 ∨ ∃ r : Fin 8, r.val = f.toNat ∧ ((s.reg r).toInt < 0 ∨ 127 < (s.reg r).toInt)) := by
  rcases registerIndex?_cases f with ⟨r, hr, -⟩ | ⟨hf, -⟩
  · by_cases hrange : 0 ≤ (s.reg r).toInt ∧ (s.reg r).toInt ≤ 127
    · exact .inl ⟨r, hr, hrange⟩
    · exact .inr (.inr ⟨r, hr.symm, by omega⟩)
  · exact .inr (.inl hf)

/-- Only a failed operand check makes an instruction raise an error: a passed check leads to a commit (R211). -/
theorem operandFails_of_exec_raises {i : Instr} {s : State} {c : ErrorCause} (h : exec i s = .next (raise c s)) :
    operandFails i s := by
  have hcommit {b : Bool} {w : State} (hc : exec i s = .next (retire i.mnemonic i.field b w)) (hw : w.count = s.count) :
      operandFails i s := absurd (Host.Outcome.next.inj (hc.symm.trans h)) (retire_ne_raise hw)
  cases i with
  | sar f | add f | mov f | nand f | sub f | mlt f | bslt f | spc f =>
    rcases registerIndex?_cases f with ⟨r, hr, -⟩ | ⟨hf, -⟩
    · exact hcommit (withRegister_ok hr) rfl
    · exact hf
  | sll f | srl f =>
    rcases registerIndex?_cases f with ⟨r, hr, -⟩ | ⟨hf, -⟩
    · by_cases h0 : 0 ≤ (s.reg r).toInt
      · exact hcommit (withShiftAmount_ok hr h0) rfl
      · exact .inr ⟨r, hr.symm, by omega⟩
    · exact .inl hf
  | load f =>
    rcases dataAddress_cases f s with ⟨r, hr, h0, h1⟩ | hfails
    · exact hcommit (exec_load_of_range hr h0 h1) rfl
    · exact hfails
  | stor f =>
    rcases dataAddress_cases f s with ⟨r, hr, h0, h1⟩ | hfails
    · exact hcommit (exec_stor_of_range hr h0 h1) rfl
    · exact hfails
  | movi f | addi f =>
    cases hi : immediate? f with
    | none => exact immediate?_eq_none.1 hi
    | some imm => exact hcommit (withImmediate_ok hi) rfl
  | b f => exact hcommit (exec_b f s) rfl
  | stop f => cases h

/-- An instruction that passes its operand check commits, but for `STOP` (R211). -/
theorem exec_of_not_operandFails {i : Instr} {s : State} (h : ¬ operandFails i s) (hm : i.mnemonic ≠ .stop) :
    ∃ (b : Bool) (w : State), exec i s = .next (retire i.mnemonic i.field b w) ∧ HandlerLeaves i.mnemonic s w := by
  cases exec_does i s with
  | fails hex _ => exact absurd (operandFails_of_exec_raises hex) h
  | stops _ hs => exact absurd hs hm
  | commits w b hex _ hw => exact ⟨b, w, hex, hw⟩

theorem exec_of_mnemonic_stop {i : Instr} (h : i.mnemonic = .stop) (s : State) :
    exec i s = .next (haltNormally .stop s) := by
  cases exec_does i s with
  | fails _ hm => exact absurd h hm
  | stops hex _ => exact hex
  | commits _ _ _ hm _ => exact absurd h hm

/-- The statuses in which a step from the running state `s` can end, each with what makes the step end in it (R210). -/
inductive StepStatus (s : State) : Status → Prop where
  | running : StepStatus s .running
  | normal (c : NormalCause) : StepStatus s (.haltedNormal c)
  | decodeFailure {w : InstrWord} {op : Field} (h : decode s.opcodeMap w = .error (.opcodeNotInTable op)) :
      StepStatus s (.haltedError (.decodeFailure op))
  | operandOutOfRange {i : Instr} (hi : nextInstr s = .ok i) (h : operandFails i s) :
      StepStatus s (.haltedError (.operandOutOfRange i.mnemonic i.field))
  | ceiling : StepStatus s (.haltedError .instructionCountExceeded)

theorem step_status {s t : State} (hr : s.status = .running) (h : step s = .next t) : StepStatus s t.status := by
  rcases hn : nextInstr s with u | i
  · cases h.symm.trans (step_of_error hn)
    rcases nextInstr_eq_error hn with ⟨hh, -⟩ | ⟨-, -, rfl⟩ | ⟨-, w, op, -, hd, rfl⟩
    · exact absurd hr hh
    · exact .normal _
    · exact .decodeFailure hd
  · rw [step_of_ok hn] at h
    cases exec_does i s with
    | fails hex _ =>
      cases h.symm.trans hex
      exact .operandOutOfRange hn (operandFails_of_exec_raises hex)
    | stops hex _ =>
      cases h.symm.trans hex
      exact .normal _
    | commits w b hex _ hw =>
      cases h.symm.trans hex
      rw [retire_status, hw.status, hr]
      split
      · exact .ceiling
      · exact .running

/-- Under a map with all 16 opcodes every word decodes, so no step of a running core raises `DecodeFailure` (R79). -/
theorem StepStatus.ne_decodeFailure {s : State} {st : Status} (h : StepStatus s st) (hlen : s.opcodeMap.length = 16)
    (op : Field) : st ≠ .haltedError (.decodeFailure op) := by
  rintro rfl
  cases h with
  | @decodeFailure w _ hd =>
    obtain ⟨m, -, hok⟩ := decode_ok_of_length hlen w
    cases hok.symm.trans hd

end Sys2Proof.Machine
end

section
/-! PROOFS. The statements about the exceptions: what raises each error, which cause wins, and that tracing only
observes. -/

namespace Sys2Proof.Machine

/-- Settles O33: the two runs go in lockstep, and giving the second the tracing of the first makes them equal. -/
theorem tracingHasNoEffectOnExecution : Obligations.TracingHasNoEffectOnExecution := by
  intro k s t d tr h
  obtain ⟨tr', hrun⟩ := run_withTracing d tr h
  exact ⟨t.withTracing d tr', hrun, rfl⟩

/-- Settles O28: a failed check raises, a passed one commits, and `OperandOutOfRange` has no other source. -/
theorem operandChecksDecideFailure : Obligations.OperandChecksDecideFailure := by
  refine fun i s => ⟨exec_of_operandFails, fun hpass hm hr => ?_, fun t m f hr h hst => ?_⟩
  · obtain ⟨b, w, hex, hw⟩ := exec_of_not_operandFails hpass hm
    refine ⟨_, hex, by rw [retire_count, hw.count], ?_⟩
    rw [retire_status, hw.status, hr]
    split
    · exact .inr rfl
    · exact .inl rfl
  · have hsource := step_status hr h
    rw [hst] at hsource
    cases hsource with
    | operandOutOfRange hi hfails => exact ⟨_, hi, hfails, rfl, rfl⟩

/-- Settles O30: the check of the field stands before the register is read, `STOP` and a failed check do not count, and
every other instruction brings `count` past the ceiling. -/
theorem oneHaltCauseByPriority : Obligations.OneHaltCauseByPriority := by
  refine ⟨fun s f hf => ?_, fun s t i _ hc hi h => ?_⟩
  · exact ⟨withShiftAmount_fail_field hf, withShiftAmount_fail_field hf, withDataAddress_fail_field hf,
      withDataAddress_fail_field hf⟩
  · rw [step_of_ok hi] at h
    refine ⟨fun hm => ?_, fun hfails => ?_, fun hm hpass => ?_⟩
    · cases h.symm.trans (exec_of_mnemonic_stop hm s)
      exact ⟨rfl, hc⟩
    · cases h.symm.trans (exec_of_operandFails hfails)
      exact ⟨rfl, hc⟩
    · obtain ⟨b, w, hex, hw⟩ := exec_of_not_operandFails hpass hm
      cases h.symm.trans hex
      rw [retire_status, retire_count, hw.count, hc]
      exact ⟨rfl, rfl⟩

/-- Settles O43: a halted core keeps its status, and a running one fetches a word that decodes. -/
theorem decodeFailureIsNeverRaised : Obligations.DecodeFailureIsNeverRaised := by
  rintro s t ⟨hlen, -⟩ hs h
  by_cases hr : s.status = .running
  · exact (step_status hr h).ne_decodeFailure hlen
  · cases h.symm.trans (step_of_halted hr)
    exact hs

end Sys2Proof.Machine
end

section
/-! PROOFS, support. A step that fetches an `SPC` or a taken branch (R101, R136, R137, R200): what it leaves below
the ceiling. -/

namespace Sys2Proof.Machine

/-- A running core with a word to fetch at `pc` executes what the word decodes to (R101, R103). -/
theorem step_of_fetched {s : State} {w : InstrWord} {i : Instr} (hr : s.status = .running) (h0 : 0 ≤ s.pc)
    (hw : s.prog[s.pc.toNat]? = some w) (hd : decode s.opcodeMap w = .ok i) : step s = exec i s :=
  step_of_ok (nextInstr_eq_ok.2 ⟨hr, w, h0, hw, hd⟩)

/-- Below the ceiling the loop's commit leaves `status` as it was (R106). -/
theorem retire_status_of_lt {w : State} (h : w.count < 1024) (m : Mnemonic) (f : Field) (b : Bool) :
    (retire m f b w).status = w.status := by
  rw [retire_status, if_neg (by omega)]

theorem exec_bslt_of_less {s : State} {g : Field} {q : Fin 8} (hg : g.toNat = q.val)
    (hlt : (s.reg s.ra).toInt < (s.reg q).toInt) : exec (.bslt g) s = .next (retire .bslt g true s) := by
  have htaken : signedLess s.acc (s.reg q) = true := signedLess_eq_true.2 hlt
  have hex : exec (.bslt g) s = .next (retire .bslt g (signedLess s.acc (s.reg q)) s) := withRegister_ok hg
  rw [hex, htaken]

/-- The instruction branches through `Rp` in this state: a `B`, or a `BSLT` whose comparison holds (R136, R200). -/
def TakesBranch (j : Instr) (g : Field) (s : State) : Prop :=
  j = .b g ∨ ∃ q : Fin 8, j = .bslt g ∧ g.toNat = q.val ∧ (s.reg s.ra).toInt < (s.reg q).toInt

/-- A taken branch writes nothing of its own and commits with the branch request. -/
theorem TakesBranch.exec_eq {j : Instr} {g : Field} {s : State} (h : TakesBranch j g s) :
    exec j s = .next (retire j.mnemonic g true s) := by
  rcases h with rfl | ⟨q, rfl, hg, hlt⟩
  · exact exec_b g s
  · exact exec_bslt_of_less hg hlt

theorem TakesBranch.lands {j : Instr} {g : Field} {s : State} (h : TakesBranch j g s) :
    ∃ t, exec j s = .next t ∧ t.pc = s.rp + 1 :=
  ⟨_, h.exec_eq, by rw [retire_pc, if_pos rfl]⟩

/-- Whether a branch is taken depends on the registers and `Ra` alone, so it passes to a state with the same ones. -/
theorem TakesBranch.congr {j : Instr} {g : Field} {s u : State} (h : TakesBranch j g s) (hregs : u.regs = s.regs)
    (hra : u.ra = s.ra) : TakesBranch j g u := by
  refine h.imp_right fun ⟨q, hj, hg, hlt⟩ => ⟨q, hj, hg, ?_⟩
  rwa [hra, State.reg_congr hregs, State.reg_congr hregs]

section
variable {s : State} {w : InstrWord} (hr : s.status = .running) (hc : s.count < 1024) (h0 : 0 ≤ s.pc)
  (hw : s.prog[s.pc.toNat]? = some w)
include hr hc h0 hw

/-- A step that fetches an `SPC` below the ceiling sets `Rp`, moves on to the next word and keeps the rest (R137). -/
theorem step_spc {f : Field} {r : Fin 8} (hd : decode s.opcodeMap w = .ok (.spc f)) (hf : f.toNat = r.val) :
    ∃ u, step s = .next u ∧ u.status = .running ∧ u.count = s.count + 1 ∧ u.pc = s.pc + 1 ∧
      u.rp = s.pc + (s.reg r).toInt ∧ u.regs = s.regs ∧ u.ra = s.ra ∧ u.prog = s.prog ∧ u.opcodeMap = s.opcodeMap := by
  have hstep : step s = .next (retire .spc f false (s.setRp (s.pc + (s.reg r).toInt))) :=
    (step_of_fetched hr h0 hw hd).trans (withRegister_ok hf)
  have hc' : (s.setRp (s.pc + (s.reg r).toInt)).count < 1024 := hc
  exact ⟨_, hstep, (retire_status_of_lt hc' ..).trans hr, retire_count .., retire_pc .., retire_rp .., retire_regs ..,
    retire_ra .., retire_prog .., retire_opcodeMap ..⟩

/-- A step that fetches a taken branch below the ceiling lands at `Rp + 1` (R104, R246). -/
theorem step_takesBranch {j : Instr} {g : Field} (hd : decode s.opcodeMap w = .ok j) (hj : TakesBranch j g s) :
    ∃ t, step s = .next t ∧ t.pc = s.rp + 1 ∧ t.rp = s.rp ∧ t.status = .running :=
  ⟨_, (step_of_fetched hr h0 hw hd).trans hj.exec_eq, retire_pc .., retire_rp .., (retire_status_of_lt hc ..).trans hr⟩

end

end Sys2Proof.Machine
end

section
/-! PROOFS, support. Clock edges, and the boot edge by edge (R242): each reset edge writes one cell and leaves all
else at what the launch gives it, so after the 128 edges nothing of the state before them is left. -/

namespace Sys2Proof.Machine

/-! ### Words written cell by cell -/

/-- The memory after the words are written one after another to the cells from `a` on. -/
def Memory.writeWords (a : Nat) (ws : List Word) (m : Memory) : Memory :=
  match ws with
  | [] => m
  | w :: rest => Memory.writeWords (a + 1) rest (m.write a w)

theorem Memory.writeWords_wf {ws : List Word} {a : Nat} {m : Memory} (hm : m.wf) (h : a + ws.length ≤ 128) :
    (Memory.writeWords a ws m).wf := by
  induction ws generalizing a m with
  | nil => exact hm
  | cons w ws ih =>
    rw [List.length_cons] at h
    exact ih (Memory.write_wf w hm (by omega)) (by omega)

/-- The words stand in the cells written, and every other cell reads as before. -/
theorem Memory.read_writeWords {ws : List Word} {a : Nat} {m : Memory} (hm : m.wf) (h : a + ws.length ≤ 128) (b : Nat) :
    (Memory.writeWords a ws m).read b = if a ≤ b ∧ b < a + ws.length then ws.getD (b - a) 0#16 else m.read b := by
  induction ws generalizing a m with
  | nil => rw [if_neg (by simp)]; rfl
  | cons w ws ih =>
    rw [List.length_cons] at h ⊢
    rw [Memory.writeWords, ih (Memory.write_wf w hm (by omega)) (by omega), Memory.read_write hm]
    rcases lt_trichotomy b a with hlt | rfl | hgt
    · rw [if_neg (by omega), if_neg (by omega), if_neg (by omega)]
    · rw [if_neg (by omega), if_pos rfl, if_pos (by omega), Nat.sub_self, List.getD_cons_zero]
    · rw [if_neg hgt.ne', show b - a = b - (a + 1) + 1 by omega, List.getD_cons_succ]
      exact if_congr (by omega) rfl rfl

/-- Written over all 128 cells, the words alone decide the memory. -/
theorem Memory.writeWords_eq_ofWords {ws : List Word} {m : Memory} (hm : m.wf) (h : ws.length = 128) :
    Memory.writeWords 0 ws m = Memory.ofWords 0 ws := by
  refine Memory.ext_read (Memory.writeWords_wf hm (by omega)) (Memory.ofWords_wf (by omega)) fun b => ?_
  rw [Memory.read_writeWords hm (by omega), Memory.read_ofWords, if_pos (Nat.zero_le b), Nat.zero_add, Nat.sub_zero, h]
  by_cases hb : b < 128
  · rw [if_pos ⟨Nat.zero_le b, hb⟩]
  · rw [if_neg (fun hc => hb hc.2), Memory.read_of_ge hm (by omega), List.getD_eq_default _ _ (by omega)]

/-! ### The edges -/

/-- The host's 7-bit address always names a cell that exists, so its write goes through (R43). -/
theorem memWrite_hostAddr (m : Memory) (a : BitVec 7) (v : Word) :
    memWrite m (a.toNat : Int) v = .ok (m.write a.toNat v) :=
  memWrite_of_range v (by omega) (by have := a.isLt; omega)

/-- Without reset an edge of a halted core drives the loader's report and does nothing else (R100, R218). -/
theorem clockEdge_of_halted {rv : ResetValues} {inp : Inputs} {s t : State} (hr : inp.rst = false) (hh : s.halted)
    (h : clockEdge rv inp s = .next t) : t = driveLoaderReport inp.memImageMalformed s := by
  rcases clockEdge_cases h with ⟨hr', -⟩ | ⟨-, -, hstep⟩
  · rw [hr] at hr'
    cases hr'
  · have hstay : step (driveLoaderReport inp.memImageMalformed s) = .next (driveLoaderReport inp.memImageMalformed s) :=
      step_of_halted hh
    cases hstep.symm.trans hstay
    rfl

/-- The state that a boot edge leaves: that of the launch, with the memory written so far. -/
def bootState (l : Launch) (m : Memory) : State := { launchState l [] with mem := m }

theorem bootState_ofWords (l : Launch) (ws : List Word) : bootState l (Memory.ofWords 0 ws) = launchState l ws := rfl

/-- One boot edge writes its cell, whatever the state was before. -/
theorem resetState_bootInput (l : Launch) {a : Nat} (ha : a < 128) (w : Word) (s : State) :
    resetState l.resetValues (bootInput l a w) s = bootState l (s.mem.write a w) := by
  have haddr : (bootInput l a w).hmemAddr.toNat = a := Nat.mod_eq_of_lt ha
  apply State.ext
  case mem => rw [resetState_mem, haddr]; rfl
  all_goals rfl

theorem clockEdges_cons_of_next {rv : ResetValues} {inp : Inputs} {s t : State} (h : clockEdge rv inp s = .next t)
    (rest : List Inputs) : clockEdges rv (inp :: rest) s = clockEdges rv rest t := by
  simp [clockEdges, h]

theorem clockEdges_cons_of_refused {rv : ResetValues} {inp : Inputs} {s : State} {e : Refusal}
    (h : clockEdge rv inp s = .refused e) (rest : List Inputs) : clockEdges rv (inp :: rest) s = .refused e := by
  simp [clockEdges, h]

theorem clockEdge_of_programTooLong {rv : ResetValues} {inp : Inputs} (hr : inp.rst = true)
    (hp : inp.program.length > Config.maxProgramLength) (s : State) :
    clockEdge rv inp s = .refused (.programTooLong inp.program.length) := by
  rw [clockEdge, if_pos hr, resetEdge, if_pos hp]

theorem clockEdge_of_illegalOpcodeMap {rv : ResetValues} {inp : Inputs} (hr : inp.rst = true)
    (hp : inp.program.length ≤ Config.maxProgramLength) (hm : ¬ inp.opcodeMap.legal) (s : State) :
    clockEdge rv inp s = .refused .illegalOpcodeMap := by
  rw [clockEdge, if_pos hr, resetEdge, if_neg (Nat.not_lt.2 hp), if_pos hm]

/-- A boot edge with a configuration the hardware has is accepted and writes its cell. -/
theorem clockEdge_bootInput {l : Launch} (hp : l.program.length ≤ Config.maxProgramLength) (hm : l.opcodeMap.legal)
    {a : Nat} (ha : a < 128) (w : Word) (s : State) :
    clockEdge l.resetValues (bootInput l a w) s = .next (bootState l (s.mem.write a w)) := by
  rw [clockEdge_reset (inp := bootInput l a w) rfl hp hm, resetState_bootInput l ha]

/-- One or more boot edges write their words one after another. -/
theorem clockEdges_bootInputsFrom {l : Launch} (hp : l.program.length ≤ Config.maxProgramLength)
    (hm : l.opcodeMap.legal) {a : Nat} {w : Word} {ws : List Word} (h : a + (w :: ws).length ≤ 128) (s : State) :
    clockEdges l.resetValues (bootInputsFrom l a (w :: ws)) s =
      .next (bootState l (Memory.writeWords a (w :: ws) s.mem)) := by
  induction ws generalizing a w s with
  | nil =>
    rw [bootInputsFrom, clockEdges_cons_of_next (clockEdge_bootInput hp hm h w s)]
    rfl
  | cons v ws ih =>
    rw [List.length_cons] at h
    rw [bootInputsFrom, clockEdges_cons_of_next (clockEdge_bootInput hp hm (by omega) w s)]
    exact ih (by omega) _

/-! ### Refusals, in the order of the launch (entry 13) -/

/-- An image that cannot be loaded refuses the launch and the boot alike, before anything else is looked at (R244). -/
theorem launch_boot_of_loadImage_error {l : Launch} {e : Refusal} (h : loadImage l.image = .error e) :
    launch l = .refused e ∧ ∀ s : State, boot l s = .refused e := by
  simp [launch, boot, h]

theorem launch_of_programTooLong {l : Launch} {ws : List Word} (h : loadImage l.image = .ok ws)
    (hp : l.program.length > Config.maxProgramLength) : launch l = .refused (.programTooLong l.program.length) := by
  simp only [launch, h, if_pos hp]

theorem launch_of_illegalOpcodeMap {l : Launch} {ws : List Word} (h : loadImage l.image = .ok ws)
    (hp : l.program.length ≤ Config.maxProgramLength) (hm : ¬ l.opcodeMap.legal) :
    launch l = .refused .illegalOpcodeMap := by
  simp only [launch, h, if_neg (Nat.not_lt.2 hp), if_pos hm]

/-- The boot of an image that can be loaded is the edges that write its words (R242). -/
theorem boot_of_loadImage_ok {l : Launch} {ws : List Word} (h : loadImage l.image = .ok ws) (s : State) :
    boot l s = clockEdges l.resetValues (bootInputsFrom l 0 ws) s := by
  simp only [boot, h, bootInputs]

end Sys2Proof.Machine
end

section
/-! PROOFS. The statements about reset and hazards: the launch as one operation and edge by edge, the reset edge, and the
branch that an `SPC` stages. -/

namespace Sys2Proof.Machine

/-- Settles O47: the image is looked at first, and the refusal names a value of it that does not fit. -/
theorem launchRefusesValuesOutsideTheWidth : Obligations.LaunchRefusesValuesOutsideTheWidth := by
  refine ⟨fun l ⟨u, hu, hout⟩ => ?_, fun l _ _ ⟨u, hu, hout⟩ => ?_⟩
  · obtain ⟨v, -, -, hload⟩ := loadImage_of_bad hu hout
    exact ⟨_, launch_boot_of_loadImage_error hload⟩
  · obtain ⟨v, hv, hvout, hload⟩ := loadImage_of_bad hu hout
    exact ⟨v, hv, hvout, (launch_boot_of_loadImage_error hload).1⟩

/-- Settles O34: the `SPC` leaves `Rp = L - 1` and moves on to the branch, which finds the registers as they were. -/
theorem stagedBranchLandsAtTheChosenAddress : Obligations.StagedBranchLandsAtTheChosenAddress := by
  refine ⟨fun s g => TakesBranch.lands (.inl rfl), fun s g q hg hlt => TakesBranch.lands (.inr ⟨q, rfl, hg, hlt⟩), ?_⟩
  intro s f g r w1 w2 j target hr hcount h0 hw1 hw2 hd1 hf hd2 hj hval
  obtain ⟨u, hstep, hrun, hc, hpc, hrp, hregs, hra, hprog, hmap⟩ := step_spc hr (by omega) h0 hw1 hd1 hf
  have hfetch : u.prog[u.pc.toNat]? = some w2 := by
    rw [hprog, hpc, Int.toNat_add h0 (by decide)]
    exact hw2
  have hbranch : TakesBranch j g u := TakesBranch.congr hj hregs hra
  obtain ⟨t, hstep', hpc', hrp', hrun'⟩ :=
    step_takesBranch hrun (by omega) (by omega) hfetch (by rw [hmap]; exact hd2) hbranch
  exact ⟨t, run_succ_eq_next.2 ⟨u, hstep, run_succ_eq_next.2 ⟨t, hstep', rfl⟩⟩, by omega, by omega, hrun'⟩

/-- Settles O48: the reset edge answers `resetState`, whose memory is the old one after at most one host write; without
reset an edge is a step, and a step of a halted core answers the core it finds. -/
theorem resetStartsANewRun : Obligations.ResetStartsANewRun := by
  refine ⟨fun rv inp s hr hp hm hwf => ?_, fun rv inp s t => clockEdge_of_halted⟩
  refine ⟨_, clockEdge_reset hr hp hm, rfl, rfl, rfl, rfl, rfl, rfl, rfl, rfl, rfl, rfl, fun hw => ?_, fun hw => ?_⟩
  · rw [resetState_mem, if_pos hw]
    exact (memWrite_spec (memWrite_hostAddr ..) hwf).2
  · exact memSame_of_eq (by rw [resetState_mem, hw]; rfl)

/-- Settles O49: where the configuration is one that the hardware has, the 128 edges write every cell; where it is not,
the first edge refuses it under the launch's name. -/
theorem bootThroughTheHostPortIsTheLaunch : Obligations.BootThroughTheHostPortIsTheLaunch := by
  intro l s hs
  rcases hload : loadImage l.image with e | ws
  · obtain ⟨hlaunch, hboot⟩ := launch_boot_of_loadImage_error hload
    rw [hlaunch, hboot]
  have hlen := loadImage_length hload
  obtain ⟨w, rest, rfl⟩ := List.exists_cons_of_length_pos (show 0 < ws.length by omega)
  rw [boot_of_loadImage_ok hload]
  by_cases hp : l.program.length ≤ Config.maxProgramLength
  · by_cases hm : l.opcodeMap.legal
    · rw [launch_eq_next.2 ⟨_, hload, hp, hm, rfl⟩, clockEdges_bootInputsFrom hp hm (by omega),
        Memory.writeWords_eq_ofWords hs hlen, bootState_ofWords]
    · rw [launch_of_illegalOpcodeMap hload hp hm]
      have hedge := clockEdge_of_illegalOpcodeMap (rv := l.resetValues) (inp := bootInput l 0 w) rfl hp hm s
      exact clockEdges_cons_of_refused hedge _
  · rw [launch_of_programTooLong hload (Nat.lt_of_not_le hp)]
    have hedge := clockEdge_of_programTooLong (rv := l.resetValues) (inp := bootInput l 0 w) rfl (Nat.lt_of_not_le hp) s
    exact clockEdges_cons_of_refused hedge _

end Sys2Proof.Machine
end
